-- ==== Sys2Proof/Word.lean ====
section
/-! DEFINITION. The two word types of the CFE core (00_scope.md R5, R6): a byte is 8 bits, an integer operand or a float
word is 32 bits. -/

namespace Sys2Proof

/-- A byte, `bits8` (R6). -/
abbrev Byte := BitVec 8

/-- A 32-bit operand or float word: `XLEN` and `FLEN` of R5. -/
abbrev Word := BitVec 32

end Sys2Proof
end

