-- ==== Sys2Proof/Machine/Arom.lean ====
section
/-! DEFINITION. AROM, the angle lookup ROM (41_angle_rom.md): a constant table of seven float words, addresses 0 to 6.
It is configuration, never state (10_state.md R19, R94). -/

namespace Sys2Proof.Machine

/-- `AromWord`, R91 and R31: the word at an address; address 7 has none (R93). -/
def aromWord (a : BitVec 3) : Option Word :=
  match a.toNat with
  | 0 => some 0x3F666666
  | 1 => some 0x3FE66666
  | 2 => some 0x40666666
  | 3 => some 0x40700000
  | 4 => some 0x40F00000
  | 5 => some 0x41700000
  | 6 => some 0x41900000
  | _ => none

/-- The step angle in degrees at an address, the order of R91. -/
def aromAngle (a : BitVec 3) : Option ℚ :=
  match a.toNat with
  | 0 => some (9 / 10)
  | 1 => some (18 / 10)
  | 2 => some (36 / 10)
  | 3 => some (375 / 100)
  | 4 => some (75 / 10)
  | 5 => some 15
  | 6 => some 18
  | _ => none

/-- The address that holds a word, where one does: the words are distinct. -/
def aromFind (w : Word) : Option (BitVec 3) :=
  [0, 1, 2, 3, 4, 5, 6].find? (fun a => aromWord a = some w)

end Sys2Proof.Machine
end

