-- ==== Sys2Proof/Machine/Fenc.lean ====
section
/-! DEFINITION. FENC, the IEEE-754 float encoder (40_float_encoder.md), as bit operations on 32-bit words, and beside it
the two functions over numbers the spec uses to speak of it: the value a float word denotes (30_encoding.md R50) and the
encoder on decimals `FEncQ` (R83). The exponent is `msb + 127` (conflict C1). -/

namespace Sys2Proof.Machine

/-- The scan of R75 from bit position `n` down to 0: the first position holding a 1 (0 where there is none). -/
def msbScan (m : Word) : Nat → Nat
  | 0 => 0
  | n + 1 => if m.getLsbD (n + 1) then n + 1 else msbScan m n

/-- `msb32`, R7 and R75: the index of the most significant set bit; never asked of zero (R72). -/
def msb32 (m : Word) : Nat := msbScan m 31

/-- The sign bit, R73: 0 for a positive input, 1 otherwise (`FEnc` asks it of nonzero inputs only). -/
def fencSign (v : Word) : BitVec 1 := if 0 < v.toInt then 0 else 1

/-- The unsigned magnitude, R74: `neg32 v` for a negative input, so that `0x80000000` keeps its bit 31 (decision D7,
log entry 16). -/
def fencMag (v : Word) : Word := if fencSign v = 1 then -v else v

/-- Normalisation by shift and truncation, R76: the 23 bits below the leading 1 at position `msb`, the rest discarded. -/
def fencFrac (mag : Word) (msb : Nat) : BitVec 23 :=
  if msb < 23 then (mag <<< (23 - msb)).extractLsb' 0 23 else (mag >>> (msb - 23)).extractLsb' 0 23

/-- Assembly, R77 and the layout of R50: sign, exponent, fraction from the most significant end. -/
def floatWord (s : BitVec 1) (e : BitVec 8) (frac : BitVec 23) : Word := s ++ e ++ frac

/-- `FEnc`, R71. -/
def fEnc (v : Word) : Word :=
  if v = 0 then 0
  else
    let mag := fencMag v
    let msb := msb32 mag
    floatWord (fencSign v) (BitVec.ofNat 8 (msb + 127)) (fencFrac mag msb)

/-- The sign field of a float word, R50. -/
def floatSign (w : Word) : Bool := w.getLsbD 31

/-- The biased exponent field of a float word, R50. -/
def floatExp (w : Word) : Nat := (w.extractLsb' 23 8).toNat

/-- The fraction field of a float word, R50. -/
def floatFrac (w : Word) : Nat := (w.extractLsb' 0 23).toNat

/-- The number a word denotes, R50: zero for the zero word, the normal-number formula for the rest (the core makes no
other kind of word, R78). -/
def floatValue (w : Word) : ℚ :=
  if w = 0 then 0
  else (if floatSign w then -1 else 1) * (2 : ℚ) ^ ((floatExp w : Int) - 127) * (1 + (floatFrac w : ℚ) / 2 ^ 23)

/-- `FEncQ`, R83: the same steps on a positive number that need not be an integer. No hardware operation: it states what
AROM must hold (R92). -/
def fEncQ (x : ℚ) : Word :=
  let msb : Int := Int.log 2 x
  floatWord 0 (BitVec.ofInt 8 (msb + 127)) (BitVec.ofInt 23 (⌊x * (2 : ℚ) ^ (23 - msb)⌋ - 2 ^ 23))

/-- The integer whose encoding a float word would be, had it one: the word's value with the bits below the point cut off. -/
def fDecInt (w : Word) : Word :=
  let sig := 2 ^ 23 + floatFrac w
  let e := floatExp w
  let mag := BitVec.ofNat 32 (if e < 150 then sig / 2 ^ (150 - e) else sig * 2 ^ (e - 150))
  if floatSign w then -mag else mag

/-- An integer that FENC encodes as `w`, where there is one: of several, the one with the discarded bits zero
(log entry 13). -/
def fDec (w : Word) : Option Word :=
  if fEnc (fDecInt w) = w then some (fDecInt w) else none

end Sys2Proof.Machine
end

