-- ==== Sys2Proof/Machine/Pack.lean ====
section
/-! DEFINITION. PACK, the little-endian field packer (42_field_packer.md). -/

namespace Sys2Proof.Machine

/-- Byte `i` of a word: bits `8*i + 7` down to `8*i` (R34, R100). -/
def wordByte (v : Word) (i : Nat) : Byte := v.extractLsb' (8 * i) 8

/-- `Pack32`, R100: the four bytes, least significant first. -/
def pack32 (v : Word) : List Byte := [wordByte v 0, wordByte v 1, wordByte v 2, wordByte v 3]

/-- `Pack8`, R101: the byte unchanged. -/
def pack8 (v : Byte) : List Byte := [v]

/-- A word from its four bytes, the least significant first: what a reader of the stream does (R35). -/
def unpack32 (b0 b1 b2 b3 : Byte) : Word := b3 ++ b2 ++ b1 ++ b0

end Sys2Proof.Machine
end

