-- ==== Sys2Proof/Config.lean ====
section
/-! DEFINITION. What is fixed for one CFE core and what comes from outside it: the parameter `VALIDATE_ENUMS`, the input
ports, and the free values (constants with no body, of which no proof can see a value). -/

namespace Sys2Proof

/-- The parameters a model takes as an argument (00_scope.md R5). `validateEnums` is `VALIDATE_ENUMS` of 60_exceptions.md
R133: `false`, the default, passes every `dir` and `exc` byte through; `true` rejects values above 1. -/
structure Params where
  validateEnums : Bool
  deriving DecidableEq, Repr

/-- The levels of every input port at one clock edge (10_state.md R16); `clk` itself is the step. -/
structure Pins where
  rst : Bool
  cmdValid : Bool
  cmd : BitVec 3
  freq : Word
  extent : Word
  dir : Byte
  exc : Byte
  asel : BitVec 3
  aval : Word
  fencIn : Word
  txReady : Bool
  deriving DecidableEq, Repr, Inhabited

/-- Every input low: nothing offered, no reset, transport not ready. DESIGN CHOICE as the pins of `State.reset`
(log entry 8, unsafe). -/
def Pins.low : Pins :=
  { rst := false, cmdValid := false, cmd := 0, freq := 0, extent := 0, dir := 0, exc := 0, asel := 0, aval := 0,
    fencIn := 0, txReady := false }

/-- FREE VALUE. The input levels at an edge past the end of `State.script`: whatever the Host and the transport then do
(log entry 2, safe). -/
opaque Config.freePins : Nat → Pins

/-- FREE VALUE. What `flen` holds once no frame is in flight: R12, R21 and U7 of 93_implementation_defined.md leave it
unspecified (log entry 6, safe). -/
opaque Config.freeFlen : Nat → BitVec 4

/-- OPEN parameter `SEL_MAP` (R5, 41_angle_rom.md R95): the software's selector value to an AROM address. It lies outside
the hardware and is not the identity by any rule (log entry 17, safe). -/
opaque Config.selMap : Nat → BitVec 3

/-- OPEN parameter `T_SETTLE` (R5, 70_reset_and_hazards.md R152): how many edges the Host lets pass before the first
command; a Host duty with no effect on the core (log entry 17, safe). -/
opaque Config.tSettle : Nat

end Sys2Proof
end

