-- ==== Sys2Proof/Syntax.lean ====
section
/-! DEFINITION. The instructions: one constructor per row of spec/opcode_table.json, that is the eight commands of the
command port (30_encoding.md R57) and the FENC operation (R62). A constructor carries exactly the operands its row reads
(43_frame_commands.md R112). -/

namespace Sys2Proof

inductive Instr where
  /-- INIT, R113: the three-byte start-up frame. -/
  | init
  /-- SETANGLE, R114: the angle word at AROM address `asel`. -/
  | setangle (asel : BitVec 3)
  /-- ROTDEG, R115: rotate by degrees. -/
  | rotdeg (freq extent : Word) (dir exc : Byte)
  /-- ROTTIME, R116: rotate by time. -/
  | rottime (freq extent : Word) (dir exc : Byte)
  /-- ROTSTEP, R117: rotate by steps. -/
  | rotstep (freq extent : Word) (dir exc : Byte)
  /-- HOLD, R118. -/
  | hold
  /-- FREE, R119. -/
  | free
  /-- SETANGLEV, R120: an integer angle through the float encoder. -/
  | setanglev (aval : Word)
  /-- FENC, R70 and R71: the stand-alone float-encoder port; no command and no frame (R62, R63). -/
  | fenc (v : Word)
  deriving DecidableEq, Repr

/-- The eight commands of the command port; FENC is none (R62). -/
def Instr.isCommand : Instr → Bool
  | .fenc _ => false
  | .init | .setangle _ | .rotdeg _ _ _ _ | .rottime _ _ _ _ | .rotstep _ _ _ _ | .hold | .free | .setanglev _ => true

end Sys2Proof
end

