-- ==== Sys2Proof/WellFormed.lean ====
section
/-! DEFINITION. Which instructions have an encoding. Operand widths are in the types (92_eei_decisions.md D6), so the only
illegal operand under every parameter setting is `asel = 7` (30_encoding.md R60); with `VALIDATE_ENUMS = true` a rotate
command with `dir > 1` or `exc > 1` is illegal too (R60, R133). An illegal command is still executed: it raises
`InvalidParameter`. -/

namespace Sys2Proof

/-- The enum check of R133: both bytes are 0 or 1. -/
def enumsLegal (dir exc : Byte) : Bool :=
  decide (dir.toNat ≤ 1) && decide (exc.toNat ≤ 1)

/-- The instruction has an encoding on the wire (for FENC, a float word): R60's check that holds whatever the parameters. -/
def Instr.wellFormed : Instr → Bool
  | .setangle asel => decide (asel ≠ 7)
  | .init | .rotdeg _ _ _ _ | .rottime _ _ _ _ | .rotstep _ _ _ _ | .hold | .free | .setanglev _ | .fenc _ => true

/-- The instruction raises nothing under the parameters `p` (R60, R133, R134). -/
def Instr.legal (p : Params) : Instr → Bool
  | .setangle asel => decide (asel ≠ 7)
  | .rotdeg _ _ dir exc => !p.validateEnums || enumsLegal dir exc
  | .rottime _ _ dir exc => !p.validateEnums || enumsLegal dir exc
  | .rotstep _ _ dir exc => !p.validateEnums || enumsLegal dir exc
  | .init | .hold | .free | .setanglev _ | .fenc _ => true

end Sys2Proof
end

