-- ==== Sys2Proof/Decode.lean ====
section
/-! DEFINITION. The two encodings of the CFE core. (1) The command port (30_encoding.md R57, R58, R62), which the machine
executes: `decodePins` reads the instruction off the input levels of an edge, `encodePins` drives them. (2) The words of
spec/opcode_table.json (R51 to R56, R63): `decode` reads the frame, or the FENC row's float word, at the head of a byte
list, and rejects by name; `encode` writes it; `decodeTableWord` numbers the bits as the table does. No step of the machine
reads a frame: it is outbound only (R60, R61). -/

namespace Sys2Proof

open Machine

/-! ## The command port -/

/-- The instruction on the input ports at an edge: with `cmd_valid` the command of code `cmd` and the operands it reads
(R57, R112); without it no command, and the FENC port alone is at work on `fenc_in` (log entry 10). -/
def decodePins (p : Pins) : Instr :=
  if p.cmdValid then
    match p.cmd.toNat with
    | 0 => .init
    | 1 => .setangle p.asel
    | 2 => .rotdeg p.freq p.extent p.dir p.exc
    | 3 => .rottime p.freq p.extent p.dir p.exc
    | 4 => .rotstep p.freq p.extent p.dir p.exc
    | 5 => .hold
    | 6 => .free
    | _ => .setanglev p.aval
  else .fenc p.fencIn

/-- The input levels of an edge that offers the instruction, all other inputs as in `p` (R57, R62). -/
def encodePins (i : Instr) (p : Pins) : Pins :=
  match i with
  | .init => { p with cmdValid := true, cmd := 0 }
  | .setangle asel => { p with cmdValid := true, cmd := 1, asel := asel }
  | .rotdeg freq extent dir exc => { p with cmdValid := true, cmd := 2, freq := freq, extent := extent, dir := dir, exc := exc }
  | .rottime freq extent dir exc => { p with cmdValid := true, cmd := 3, freq := freq, extent := extent, dir := dir, exc := exc }
  | .rotstep freq extent dir exc => { p with cmdValid := true, cmd := 4, freq := freq, extent := extent, dir := dir, exc := exc }
  | .hold => { p with cmdValid := true, cmd := 5 }
  | .free => { p with cmdValid := true, cmd := 6 }
  | .setanglev aval => { p with cmdValid := true, cmd := 7, aval := aval }
  | .fenc v => { p with cmdValid := false, fencIn := v }

/-! ## The words of the opcode table -/

/-- Why a byte sequence is no word of the table. -/
inductive DecodeError where
  /-- the bytes end before the frame does -/
  | truncated
  /-- CLASS is neither `0xFE` nor `0xFF` (R51) -/
  | badClass
  /-- CLASS `0xFE` with an OPCODE other than `0x01` (R53) -/
  | badInitOpcode
  /-- LEN_OR_FLAG is neither `0x03` nor `0x05` (R51) -/
  | badFlag
  /-- an OPCODE the core never emits under that LEN_OR_FLAG (R59) -/
  | badOpcode
  /-- the word of an FA frame is neither an AROM word nor one that FENC returns (R55) -/
  | notAnAngleWord
  /-- a word that FENC never returns (R78) -/
  | notAFloatWord
  deriving DecidableEq, Repr

/-- One row of spec/opcode_table.json: its `match` and its `mask`, bytes in the table's order (R63). -/
structure TableRow where
  pattern : List Byte
  mask : List Byte
  deriving DecidableEq, Repr

/-- The row of an instruction (R63). -/
def tableRow : Instr → TableRow
  | .init => ⟨[0xA5, 0xFE, 0x01], [0xFF, 0xFF, 0xFF]⟩
  | .setangle _ => ⟨[0xA5, 0xFF, 0x05, 0x69, 0, 0, 0, 0], [0xFF, 0xFF, 0xFF, 0xFF, 0, 0, 0, 0]⟩
  | .rotdeg _ _ _ _ =>
    ⟨[0xA5, 0xFF, 0x03, 0x6A, 0, 0, 0, 0, 0, 0, 0, 0, 0, 0], [0xFF, 0xFF, 0xFF, 0xFF, 0, 0, 0, 0, 0, 0, 0, 0, 0, 0]⟩
  | .rottime _ _ _ _ =>
    ⟨[0xA5, 0xFF, 0x03, 0x6B, 0, 0, 0, 0, 0, 0, 0, 0, 0, 0], [0xFF, 0xFF, 0xFF, 0xFF, 0, 0, 0, 0, 0, 0, 0, 0, 0, 0]⟩
  | .rotstep _ _ _ _ =>
    ⟨[0xA5, 0xFF, 0x03, 0x6C, 0, 0, 0, 0, 0, 0, 0, 0, 0, 0], [0xFF, 0xFF, 0xFF, 0xFF, 0, 0, 0, 0, 0, 0, 0, 0, 0, 0]⟩
  | .hold => ⟨[0xA5, 0xFF, 0x03, 0x6E], [0xFF, 0xFF, 0xFF, 0xFF]⟩
  | .free => ⟨[0xA5, 0xFF, 0x03, 0x6F], [0xFF, 0xFF, 0xFF, 0xFF]⟩
  | .setanglev _ => ⟨[0xA5, 0xFF, 0x05, 0x69, 0, 0, 0, 0], [0xFF, 0xFF, 0xFF, 0xFF, 0, 0, 0, 0]⟩
  | .fenc _ => ⟨[0, 0, 0, 0], [0, 0, 0, 0]⟩

/-- `(s AND mask) = match` of R63, for a sequence of the row's length. -/
def TableRow.matches (r : TableRow) (bs : List Byte) : Bool :=
  decide (bs.length = r.pattern.length) && decide (List.zipWith (· &&& ·) bs r.mask = r.pattern)

/-- The field bytes of a 32-bit frame field, lowest index first (R55, R56). -/
def wordField (v : Word) : List Byte := [wordByte v 0, wordByte v 1, wordByte v 2, wordByte v 3]

/-- The field bits of an instruction's word, zero where the row's bits are fixed; none for `asel = 7`, which has no
frame (R55, R56, R93). -/
def fieldBytes : Instr → Option (List Byte)
  | .init => some [0, 0, 0]
  | .setangle asel => (aromWord asel).map (fun w => [0, 0, 0, 0] ++ wordField w)
  | .rotdeg freq extent dir exc => some ([0, 0, 0, 0] ++ wordField freq ++ wordField extent ++ [dir, exc])
  | .rottime freq extent dir exc => some ([0, 0, 0, 0] ++ wordField freq ++ wordField extent ++ [dir, exc])
  | .rotstep freq extent dir exc => some ([0, 0, 0, 0] ++ wordField freq ++ wordField extent ++ [dir, exc])
  | .hold => some [0, 0, 0, 0]
  | .free => some [0, 0, 0, 0]
  | .setanglev aval => some ([0, 0, 0, 0] ++ wordField (fEnc aval))
  | .fenc v => some (wordField (fEnc v)).reverse

/-- The bytes of a well-formed instruction as its table row gives them: fixed bits and field bits together; for FENC the
float word, most significant byte first (R63). An ill-formed instruction has none. -/
def encode (i : Instr) : List Byte :=
  match fieldBytes i with
  | some fs => List.zipWith (· ||| ·) (tableRow i).pattern fs
  | none => []

/-- The operands of an FR frame (R56), given to the command `k`. -/
def decodeRotate (k : Word → Word → Byte → Byte → Instr) : List Byte → Except DecodeError (Instr × List Byte)
  | f0 :: f1 :: f2 :: f3 :: x0 :: x1 :: x2 :: x3 :: d :: e :: rest =>
    .ok (k (unpack32 f0 f1 f2 f3) (unpack32 x0 x1 x2 x3) d e, rest)
  | _ => .error .truncated

/-- The word of an FA frame (R55): SETANGLE where AROM holds it, else SETANGLEV where FENC returns it (log entry 13). -/
def decodeAngle : List Byte → Except DecodeError (Instr × List Byte)
  | w0 :: w1 :: w2 :: w3 :: rest =>
    match aromFind (unpack32 w0 w1 w2 w3) with
    | some a => .ok (.setangle a, rest)
    | none =>
      match fDec (unpack32 w0 w1 w2 w3) with
      | some v => .ok (.setanglev v, rest)
      | none => .error .notAnAngleWord
  | _ => .error .truncated

/-- An operational frame after CLASS: LEN_OR_FLAG, OPCODE, payload (R51, R54 to R56, R59). -/
def decodeOperational (flag op : Byte) (rest : List Byte) : Except DecodeError (Instr × List Byte) :=
  if flag = 0x05 then
    if op = 0x69 then decodeAngle rest else .error .badOpcode
  else if flag = 0x03 then
    if op = 0x6A then decodeRotate .rotdeg rest
    else if op = 0x6B then decodeRotate .rottime rest
    else if op = 0x6C then decodeRotate .rotstep rest
    else if op = 0x6E then .ok (.hold, rest)
    else if op = 0x6F then .ok (.free, rest)
    else .error .badOpcode
  else .error .badFlag

/-- A frame after its SYNC byte (R51, R53). -/
def decodeFrame : List Byte → Except DecodeError (Instr × List Byte)
  | cls :: b2 :: rest =>
    if cls = 0xFE then
      if b2 = 0x01 then .ok (.init, rest) else .error .badInitOpcode
    else if cls = 0xFF then
      match rest with
      | op :: rest' => decodeOperational b2 op rest'
      | [] => .error .truncated
    else .error .badClass
  | _ => .error .truncated

/-- The FENC row: a float word, most significant byte first (R63), where FENC returns it (log entry 13). -/
def decodeFloat : List Byte → Except DecodeError (Instr × List Byte)
  | b3 :: b2 :: b1 :: b0 :: rest =>
    match fDec (unpack32 b0 b1 b2 b3) with
    | some v => .ok (.fenc v, rest)
    | none => .error .notAFloatWord
  | _ => .error .truncated

/-- The table word at the head of a byte list, and the rest of the list. A first byte `0xA5` is SYNC (R51); it begins no
word that FENC returns (the exponent would be 74 or 75, R78), so the rows do not meet. -/
def decode : List Byte → Except DecodeError (Instr × List Byte)
  | b0 :: rest => if b0 = 0xA5 then decodeFrame rest else decodeFloat (b0 :: rest)
  | [] => .error .truncated

/-- Byte `i` of the `n` bytes of a table word, the first byte being the most significant as the table writes its `match`
(log entry 12). -/
def tableBytes (n w : Nat) : List Byte :=
  (List.range n).map (fun i => BitVec.ofNat 8 (w / 2 ^ (8 * (n - 1 - i))))

/-- The instruction of the table word `w` of `nbits` bits, followed by zero bytes where the row gives fewer bits than the
instruction has; the word must not be longer than the instruction. -/
def decodeTableWord (nbits w : Nat) : Option Instr :=
  match decode (tableBytes (nbits / 8) w ++ List.replicate 14 0) with
  | .ok (i, rest) => if rest.length ≤ 14 then some i else none
  | .error _ => none

/-! ## Cutting the stream (R61) -/

/-- The length of the frame that begins at a frame boundary, R61: bytes 0, 1 and 3 decide. -/
def frameLength (bs : List Byte) : Option Nat :=
  if bs[0]? = some 0xA5 then
    if bs[1]? = some 0xFE then some 3
    else if bs[1]? = some 0xFF then
      if bs[3]? = some 0x69 then some 8
      else if bs[3]? = some 0x6A ∨ bs[3]? = some 0x6B ∨ bs[3]? = some 0x6C then some 14
      else if bs[3]? = some 0x6E ∨ bs[3]? = some 0x6F then some 4
      else none
    else none
  else none

/-- At most `fuel` frames cut off the head of a stream that begins at a frame boundary; `none` where what is left is no
whole frame (R61). -/
def cutFrames : Nat → List Byte → Option (List (List Byte))
  | _, [] => some []
  | 0, _ :: _ => none
  | fuel + 1, b :: bs =>
    match frameLength (b :: bs) with
    | some k =>
      if k ≤ (b :: bs).length then (cutFrames fuel ((b :: bs).drop k)).map (fun fs => (b :: bs).take k :: fs) else none
    | none => none

end Sys2Proof
end

