-- ==== Sys2Proof/Machine/State.lean ====
section
/-! DEFINITION. The state of the CFE core (10_state.md), as plain data: the state elements of FSER (R11 to R15), the ghost
`tx_log` (R18), and the model's own fields for what stands outside the core (the input ports, the parameters). -/

namespace Sys2Proof.Machine

/-- A byte memory in canonical form: addresses strictly rising; an address that is not listed holds no value a rule may
read (R21, log entry 7). -/
abbrev Memory := List Host.Cell

structure State where
  /-- R11: a frame is in flight. -/
  busy : Bool
  /-- R12: its length in bytes; unspecified while idle. -/
  flen : BitVec 4
  /-- R13: the index of the next byte to hand over. -/
  bidx : BitVec 4
  /-- R14, R32: the frame buffer, indices 0 to 13; unspecified bytes are not listed. -/
  fbuf : Memory
  /-- R15: the sticky error flag. -/
  err : Bool
  /-- R15, R130: the cause of the first error since reset. -/
  errCause : BitVec 3
  /-- R18: the ghost sequence of the bytes handed to the transport since reset, oldest first. -/
  txLog : List Byte
  /-- R16: the input levels at the latest clock edge (of the model, log entry 3). -/
  pins : Pins
  /-- The input levels at the coming clock edges, oldest first: what the Host and the transport will do (of the model,
  log entry 2). -/
  script : List Pins
  /-- How many free values have been drawn (of the model, log entries 2 and 6). -/
  draws : Nat
  /-- The parameters, written by nothing (of the model, log entry 4). -/
  params : Params
  deriving DecidableEq, Repr

/-- Why the machine stops. Neither is met in a state that satisfies R20. -/
inductive Fault where
  /-- Raised by EMIT when it would read a byte of FBUF that is unspecified (R21, U7: "faults a read of it"). Safe. -/
  | fbufUnspecified
  /-- Raised by EMIT when `bidx` is 14 or 15, outside FBUF's fourteen bytes (R32). Safe. -/
  | fbufOutside
  deriving DecidableEq, Repr

/-- Why an instruction has no meaning. -/
inductive Refusal where
  /-- Raised by an arm of `exec` that has no meaning yet, under the instruction's mnemonic; no arm does. Safe. -/
  | notModelled (mnemonic : String)
  deriving DecidableEq, Repr

/-- The result type of a step. -/
abbrev Result := Host.Outcome State Fault Refusal

/-- The machine right after reset, R21. `flen` is DESIGN CHOICE 0 (log entry 5, unsafe), `pins` DESIGN CHOICE all low (log
entry 8, unsafe); the script is empty and the parameters have the default of R5. -/
def State.reset : State :=
  { busy := false, flen := 0, bidx := 0, fbuf := [], err := false, errCause := 0, txLog := [],
    pins := Pins.low, script := [], draws := 0, params := { validateEnums := false } }

end Sys2Proof.Machine
end

