-- ==== Sys2Proof/Machine/Flags.lean ====
section
/-! DEFINITION. The flags `err` and `err_cause` after an error (60_exceptions.md R131) and the output ports, which are
functions of the state and the input levels (10_state.md R17). -/

namespace Sys2Proof.Machine

/-- `err_cause` after an error of cause `new`, R131: the first cause is kept. -/
def causeAfter (err : Bool) (old new : BitVec 3) : BitVec 3 := if err then old else new

/-- `cmd_ready`, R17. -/
def State.cmdReady (s : State) : Bool := !s.busy

/-- `tx_valid`, R17. -/
def State.txValid (s : State) : Bool := s.busy

/-- `fenc_out`, R17: combinational, from the level on `fenc_in` alone (R84). -/
def State.fencOut (s : State) : Word := fEnc s.pins.fencIn

end Sys2Proof.Machine
end

