-- ==== Sys2Proof/Machine/Operands.lean ====
section
/-! DEFINITION. How operands become a frame (43_frame_commands.md R110, 30_encoding.md R58): the causes of
`InvalidParameter`, the frame of each format, and `Frame(c)`. -/

namespace Sys2Proof.Machine

/-- The causes a command can raise, 60_exceptions.md R130. -/
inductive ErrCause where
  /-- SETANGLE with `asel = 7`, R93 -/
  | angleIndexOutOfRange
  /-- a rotate command with `dir > 1` under `VALIDATE_ENUMS` -/
  | directionInvalid
  /-- a rotate command with `exc > 1` and `dir <= 1` under `VALIDATE_ENUMS` -/
  | excitationInvalid
  deriving DecidableEq, Repr

/-- The code recorded in `err_cause`, R130. -/
def ErrCause.code : ErrCause → BitVec 3
  | .angleIndexOutOfRange => 2
  | .directionInvalid => 3
  | .excitationInvalid => 4

/-- A frame, or the error raised before any byte of it is built (R110). -/
abbrev FrameResult := Except ErrCause (List Byte)

/-- `AromLookup`, R90: an AROM word, or the error of R93 for address 7. -/
def aromLookup (a : BitVec 3) : Except ErrCause Word :=
  match aromWord a with
  | some w => .ok w
  | none => .error .angleIndexOutOfRange

/-- Format FI, R53. -/
def frameFI : List Byte := [0xA5, 0xFE, 0x01]

/-- Format FN, R54. -/
def frameFN (op : Byte) : List Byte := [0xA5, 0xFF, 0x03, op]

/-- Format FA, R55. -/
def frameFA (w : Word) : List Byte := [0xA5, 0xFF, 0x05, 0x69] ++ pack32 w

/-- Format FR, R56. -/
def frameFR (op : Byte) (freq extent : Word) (dir exc : Byte) : List Byte :=
  [0xA5, 0xFF, 0x03, op] ++ pack32 freq ++ pack32 extent ++ pack8 dir ++ pack8 exc

/-- `Rot`, R110: the checks of R122 in their order (`dir`, then `exc`), then the frame. -/
def rotate (validate : Bool) (op : Byte) (freq extent : Word) (dir exc : Byte) : FrameResult :=
  if validate && decide (1 < dir.toNat) then .error .directionInvalid
  else if validate && decide (1 < exc.toNat) then .error .excitationInvalid
  else .ok (frameFR op freq extent dir exc)

/-- The frame of SETANGLE, R114. -/
def angleByAddress (asel : BitVec 3) : FrameResult :=
  match aromLookup asel with
  | .ok w => .ok (frameFA w)
  | .error c => .error c

/-- `Frame(c)`, R110, of the instruction on the command port. FENC is no command and gives no byte. -/
def frame (validate : Bool) : Instr → FrameResult
  | .init => .ok frameFI
  | .setangle asel => angleByAddress asel
  | .rotdeg freq extent dir exc => rotate validate 0x6A freq extent dir exc
  | .rottime freq extent dir exc => rotate validate 0x6B freq extent dir exc
  | .rotstep freq extent dir exc => rotate validate 0x6C freq extent dir exc
  | .hold => .ok (frameFN 0x6E)
  | .free => .ok (frameFN 0x6F)
  | .setanglev aval => .ok (frameFA (fEnc aval))
  | .fenc _ => .ok []

/-- The bytes a command adds to the stream, `F(c)` of 20_memory.md R39: none where it raises. -/
def frameBytes (validate : Bool) (i : Instr) : List Byte :=
  match frame validate i with
  | .ok bytes => bytes
  | .error _ => []

end Sys2Proof.Machine
end

