-- ==== Sys2Proof/Machine/Ops.lean ====
section
/-! DEFINITION. The named operations: FBUF as a memory (20_memory.md R32, R33), ACCEPT (43_frame_commands.md R111) with its
error action (60_exceptions.md R131), EMIT (R37), RESET (70_reset_and_hazards.md R150), the taking of the input levels of
an edge, and which of these an edge performs (R135). -/

namespace Sys2Proof.Machine

/-! ## FBUF -/

/-- FBUF has fourteen bytes, R32. -/
def fbufDepth : Nat := 14

/-- The byte at an address, where a value stands there. -/
def Memory.read : Memory → Nat → Option Byte
  | [], _ => none
  | (a, b) :: m, k => if a = k then some b else Memory.read m k

/-- `MemWrite(FBUF, k, 1, b)`, R33, keeping the canonical form. -/
def Memory.write : Memory → Nat → Byte → Memory
  | [], k, b => [(k, b)]
  | (a, x) :: m, k, b =>
    if k < a then (k, b) :: (a, x) :: m
    else if k = a then (k, b) :: m
    else (a, x) :: Memory.write m k b

/-- Byte writes at consecutive indices from `k` (R33, R34). -/
def Memory.writeFrom (m : Memory) (k : Nat) : List Byte → Memory
  | [] => m
  | b :: bs => Memory.writeFrom (Memory.write m k b) (k + 1) bs

/-- The listed addresses lie in FBUF, rise strictly and are at least `lo`. -/
def Memory.wfFrom (lo : Nat) : Memory → Bool
  | [] => true
  | (a, _) :: m => decide (lo ≤ a) && decide (a < fbufDepth) && Memory.wfFrom (a + 1) m

/-- The canonical form of FBUF's contents. -/
def Memory.wf (m : Memory) : Bool := Memory.wfFrom 0 m

/-- `tx_data`, R17: `fbuf[bidx]` while a frame is in flight, no value otherwise. -/
def State.txData (s : State) : Option Byte := if s.busy then s.fbuf.read s.bidx.toNat else none

/-! ## ACCEPT -/

/-- The action `raise InvalidParameter(cause)`, R131: the one exception entry of the core. There is no pc, status or mode
to save and no handler; the return from it does not exist (R137). -/
def State.raiseInvalid (s : State) (c : ErrCause) : State :=
  { s with err := true, errCause := causeAfter s.err s.errCause c.code }

/-- The successful ACCEPT, R111: the whole frame written, from index 0. -/
def State.loadFrame (s : State) (bytes : List Byte) : State :=
  { s with
    fbuf := s.fbuf.writeFrom 0 bytes
    flen := BitVec.ofNat 4 bytes.length
    bidx := 0
    busy := true }

/-- ACCEPT, R111, of a command whose `Frame` is `r`. While a frame is in flight it is not enabled and the command waits:
nothing changes (R134, R154). -/
def accept (r : FrameResult) (s : State) : Result :=
  if s.busy then .next s
  else
    match r with
    | .error c => .next (s.raiseInvalid c)
    | .ok bytes => .next (s.loadFrame bytes)

/-- The stand-alone FENC port, R17 and R62: the Host drives `fenc_in`; `fenc_out` follows it. No state element changes. -/
def driveFenc (v : Word) (s : State) : Result :=
  .next { s with pins := { s.pins with fencIn := v } }

/-! ## EMIT -/

/-- The frame is discarded: `fbuf` and `flen` become unspecified (R12, R14, U7): no byte is listed, and `flen` is a free
value (log entries 6 and 7). -/
def State.discardFrame (s : State) : State :=
  { s with busy := false, bidx := 0, fbuf := [], flen := Config.freeFlen s.draws, draws := s.draws + 1 }

/-- EMIT after the byte is handed over, R37: on to the next byte, or idle after the last one. -/
def State.advance (s : State) : State :=
  if s.bidx = s.flen - 1 then s.discardFrame else { s with bidx := s.bidx + 1 }

/-- `Tx(b)`, R18: the ghost sequence grows by one byte. -/
def State.tx (s : State) (b : Byte) : State := { s with txLog := s.txLog ++ [b] }

/-- EMIT, R37, of a frame in flight whose transport is ready. -/
def emit (s : State) : Result :=
  match s.fbuf.read s.bidx.toNat with
  | some b => .next (s.tx b).advance
  | none => if s.bidx.toNat < fbufDepth then .fault .fbufUnspecified else .fault .fbufOutside

/-! ## RESET -/

/-- RESET, R150: idle, no error, the observation afresh; the frame in flight is lost (R151). -/
def State.resetCore (s : State) : State :=
  { s.discardFrame with err := false, errCause := 0, txLog := [] }

/-! ## The clock edge -/

/-- The input levels at the coming edge: what the Host and the transport have in store, or a free value past its end
(log entry 2). -/
def State.coming (s : State) : Pins :=
  match s.script with
  | p :: _ => p
  | [] => Config.freePins s.draws

/-- The ports take the levels of the coming edge. -/
def State.takePins (s : State) : State :=
  match s.script with
  | p :: ps => { s with pins := p, script := ps }
  | [] => { s with pins := Config.freePins s.draws, draws := s.draws + 1 }

/-- What a clock edge does to FSER. -/
inductive Edge where
  /-- RESET, R150 -/
  | reset
  /-- EMIT, R37 -/
  | emit
  /-- a frame is in flight and the transport is not ready: nothing (R37, R42) -/
  | stall
  /-- FSER is idle: the instruction on the input ports (ACCEPT of a command, or FENC alone) -/
  | run (i : Instr)
  deriving DecidableEq, Repr

/-- What the edge with input levels `p` does, R135: RESET before all else; EMIT needs `busy = 1`, ACCEPT `busy = 0`. -/
def edgeAt (p : Pins) (s : State) : Edge :=
  if p.rst then .reset
  else if s.busy then (if p.txReady then .emit else .stall)
  else .run (decodePins p)

/-! ## Placing an instruction -/

/-- The state in which the Host offers the instruction at the very next edge, to an idle core: the offer goes before
whatever the Host has in store (log entry 15). -/
def State.offer (s : State) (i : Instr) : State :=
  let t := if s.busy then s.discardFrame else s
  { t with script := encodePins i { s.pins with rst := false } :: s.script }

/-- The input levels of a Host that offers the commands one after the other to an always ready transport, each offer
followed by the edges its frame takes (R152, R156): one way to fill `State.script` (log entry 15). -/
def hostScript (p : Params) : List Instr → List Pins
  | [] => []
  | i :: is =>
    encodePins i Pins.low ::
      (List.replicate (frameBytes p.validateEnums i).length { Pins.low with txReady := true } ++ hostScript p is)

end Sys2Proof.Machine
end

