-- ==== Sys2Proof/Machine/Angle.lean ====
section
/-! DEFINITION. The angle commands (format FA), SETANGLE and SETANGLEV, 43_frame_commands.md R114 and R120, and the
stand-alone FENC port, 40_float_encoder.md R70. -/

namespace Sys2Proof.Machine

/-- SETANGLE, R114: the AROM word at `asel`, or `InvalidParameter(2)` at address 7 (R93). -/
def execSetangle (asel : BitVec 3) (s : State) : Result := accept (angleByAddress asel) s

/-- SETANGLEV, R120: the float word of `aval`; it never raises. -/
def execSetanglev (aval : Word) (s : State) : Result := accept (.ok (frameFA (fEnc aval))) s

/-- FENC, R70, R71, R62: `fenc_in` becomes `v` and `fenc_out` reads `FEnc(v)`. -/
def execFenc (v : Word) (s : State) : Result := driveFenc v s

/-- What software that selects a fixed-step angle by its own selector value offers (R95): the address is `SEL_MAP`'s. -/
def selectAngle (selector : Nat) : Instr := .setangle (Config.selMap selector)

end Sys2Proof.Machine
end

