-- ==== Sys2Proof/Machine/Frameless.lean ====
section
/-! DEFINITION. The commands without a payload: INIT (format FI), HOLD and FREE (format FN), 43_frame_commands.md R113,
R118, R119. -/

namespace Sys2Proof.Machine

/-- INIT, R113: an ordinary command; repeats and any order are accepted. -/
def execInit (s : State) : Result := accept (.ok frameFI) s

/-- HOLD, R118. -/
def execHold (s : State) : Result := accept (.ok (frameFN 0x6E)) s

/-- FREE, R119. -/
def execFree (s : State) : Result := accept (.ok (frameFN 0x6F)) s

end Sys2Proof.Machine
end

