-- ==== Sys2Proof/Machine/Rotate.lean ====
section
/-! DEFINITION. The rotate commands (format FR), ROTDEG, ROTTIME, ROTSTEP, 43_frame_commands.md R115 to R117: operands sent
as they are, degrees not float-encoded; the enum checks of R122 under `VALIDATE_ENUMS` (R133). -/

namespace Sys2Proof.Machine

/-- ROTDEG, R115. -/
def execRotdeg (freq extent : Word) (dir exc : Byte) (s : State) : Result :=
  accept (rotate s.params.validateEnums 0x6A freq extent dir exc) s

/-- ROTTIME, R116. -/
def execRottime (freq extent : Word) (dir exc : Byte) (s : State) : Result :=
  accept (rotate s.params.validateEnums 0x6B freq extent dir exc) s

/-- ROTSTEP, R117. -/
def execRotstep (freq extent : Word) (dir exc : Byte) (s : State) : Result :=
  accept (rotate s.params.validateEnums 0x6C freq extent dir exc) s

end Sys2Proof.Machine
end

