-- ==== Sys2Proof/Machine/Dispatch.lean ====
section
/-! DEFINITION. One arm per instruction, each a direct call of its meaning. -/

namespace Sys2Proof.Machine

def exec (i : Instr) (s : State) : Host.Outcome State Fault Refusal :=
  match i with
  | .init => Sys2Proof.Machine.execInit s
  | .setangle asel => Sys2Proof.Machine.execSetangle asel s
  | .rotdeg freq extent dir exc => Sys2Proof.Machine.execRotdeg freq extent dir exc s
  | .rottime freq extent dir exc => Sys2Proof.Machine.execRottime freq extent dir exc s
  | .rotstep freq extent dir exc => Sys2Proof.Machine.execRotstep freq extent dir exc s
  | .hold => Sys2Proof.Machine.execHold s
  | .free => Sys2Proof.Machine.execFree s
  | .setanglev aval => Sys2Proof.Machine.execSetanglev aval s
  | .fenc v => Sys2Proof.Machine.execFenc v s

end Sys2Proof.Machine
end

