-- ==== Sys2Proof/Machine/Step.lean ====
section
/-! DEFINITION. One step is one clock edge (10_state.md R10, log entry 1): the ports take the levels of the coming edge, and
FSER does what the edge asks of it (R135). -/

namespace Sys2Proof.Machine

def step (s : State) : Host.Outcome State Fault Refusal :=
  match edgeAt s.coming s with
  | .reset => .next s.takePins.resetCore
  | .emit => emit s.takePins
  | .stall => .next s.takePins
  | .run i => exec i s.takePins

/-- The state whose next step runs the table word's instruction: the Host offers it at the next edge (log entry 15). A
word that is no instruction changes nothing. -/
def State.withFetchWord (s : State) (nbits w : Nat) : State :=
  match decodeTableWord nbits w with
  | some i => s.offer i
  | none => s

end Sys2Proof.Machine
end

