-- ==== Sys2Proof/Safety.lean ====
section
/-! DEFINITION. The terms claims are stated in: what an accepted and a rejected command do to the state, the invariants of
10_state.md R20, the bytes still to be handed over, the commands accepted along a run, and the duties of the Host
(70_reset_and_hazards.md R151, R152, R154), which the core does not enforce. -/

namespace Sys2Proof.Safety

open Machine

/-! ## What a command does -/

/-- Nothing outside the core, and no parameter, has changed. -/
def SameOutside (s t : State) : Prop :=
  t.pins = s.pins ∧ t.script = s.script ∧ t.draws = s.draws ∧ t.params = s.params

/-- `t` is `s` after a successful ACCEPT of the frame `F` (R111): the frame stands in FBUF from index 0, every other byte of
FBUF is as before, the error flags and the stream are as before. -/
def Loads (F : List Byte) (s t : State) : Prop :=
  t.busy = true ∧ t.bidx = 0 ∧ t.flen.toNat = F.length ∧
  (∀ k, k < F.length → t.fbuf.read k = F[k]?) ∧
  (∀ k, F.length ≤ k → t.fbuf.read k = s.fbuf.read k) ∧
  t.err = s.err ∧ t.errCause = s.errCause ∧ t.txLog = s.txLog ∧ SameOutside s t

/-- `t` is `s` after `raise InvalidParameter(cause)` (R131): `err` set, the first cause kept, all else as before. -/
def Rejects (cause : BitVec 3) (s t : State) : Prop :=
  t.err = true ∧ t.errCause = (if s.err then s.errCause else cause) ∧
  t.busy = s.busy ∧ t.bidx = s.bidx ∧ t.flen = s.flen ∧ t.fbuf = s.fbuf ∧ t.txLog = s.txLog ∧ SameOutside s t

/-- The state elements of the core (R11 to R15, R18) are as before. -/
def SameCore (s t : State) : Prop :=
  t.busy = s.busy ∧ t.bidx = s.bidx ∧ t.flen = s.flen ∧ t.fbuf = s.fbuf ∧ t.err = s.err ∧ t.errCause = s.errCause ∧
  t.txLog = s.txLog

/-! ## Invariants -/

/-- The frame `F` is in flight, its next byte at `bidx` (R11 to R14). -/
structure FrameInFlight (s : State) (F : List Byte) : Prop where
  busy : s.busy = true
  length : s.flen.toNat = F.length
  bytes : ∀ k, k < F.length → s.fbuf.read k = F[k]?
  cursor : s.bidx.toNat < F.length

/-- R20 items 1 to 3, and the canonical form of FBUF: idle, the cursor is 0 and no byte of FBUF holds a value; busy, the
frame of some command is in flight. -/
structure FrameInv (s : State) : Prop where
  wf : s.fbuf.wf = true
  idle : s.busy = false → s.bidx = 0 ∧ s.fbuf = []
  inFlight : s.busy = true →
    ∃ c F, c.isCommand = true ∧ frame s.params.validateEnums c = .ok F ∧ FrameInFlight s F

/-- The bytes of the frame in flight that are still to be handed over. -/
def outstanding (s : State) : List Byte :=
  if s.busy then (List.range' s.bidx.toNat (s.flen.toNat - s.bidx.toNat)).filterMap s.fbuf.read else []

/-- R20 item 4: the stream, with what is still to come of the frame in flight, is a concatenation of whole frames of
commands that raise nothing. -/
def StreamInv (s : State) : Prop :=
  ∃ cs : List Instr, (∀ c ∈ cs, c.isCommand = true ∧ c.legal s.params = true) ∧
    s.txLog ++ outstanding s = cs.flatMap (frameBytes s.params.validateEnums)

/-- What `err` and `err_cause` can hold together (R15, R130): cause 0 without an error, else 2, 3 or 4, and only 2 with
`VALIDATE_ENUMS = false`. -/
def ErrInv (s : State) : Prop :=
  (s.err = false → s.errCause = 0) ∧
  (s.err = true → s.errCause = 2 ∨ (s.params.validateEnums = true ∧ (s.errCause = 3 ∨ s.errCause = 4)))

/-! ## Runs -/

/-- `n` clock edges, stopping at the first fault or refusal. -/
def runEdges : Nat → State → Result
  | 0, s => .next s
  | n + 1, s =>
    match step s with
    | .next t => runEdges n t
    | .fault r => .fault r
    | .refused r => .refused r

/-- The command accepted without an error at the coming edge, if any. -/
def acceptedAt (s : State) : List Instr :=
  match edgeAt s.coming s with
  | .run i => if i.isCommand && i.legal s.params then [i] else []
  | .reset => []
  | .emit => []
  | .stall => []

/-- The commands accepted without an error in the next `n` edges, in order. -/
def accepted : Nat → State → List Instr
  | 0, _ => []
  | n + 1, s =>
    acceptedAt s ++ (match step s with
      | .next t => accepted n t
      | .fault _ => []
      | .refused _ => [])

/-- No RESET in the next `n` edges. -/
def NoReset : Nat → State → Prop
  | 0, _ => True
  | n + 1, s => s.coming.rst = false ∧ ∀ t, step s = .next t → NoReset n t

/-- At how many of these edges the transport is ready. -/
def readyEdges (ps : List Pins) : Nat := (ps.filter (fun p => p.txReady)).length

/-! ## The length of a frame -/

/-- The length of the format of a command, R52; FENC has no frame. -/
def formatLength : Instr → Nat
  | .init => 3
  | .hold => 4
  | .free => 4
  | .setangle _ => 8
  | .setanglev _ => 8
  | .rotdeg _ _ _ _ => 14
  | .rottime _ _ _ _ => 14
  | .rotstep _ _ _ _ => 14
  | .fenc _ => 0

/-! ## Which inputs a command reads -/

/-- Two sets of input levels agree on every operand the command of code `p.cmd` reads (R112). -/
def AgreeOnRead (p q : Pins) : Prop :=
  p.cmd = q.cmd ∧ (p.cmd = 1 → p.asel = q.asel) ∧
  (p.cmd = 2 ∨ p.cmd = 3 ∨ p.cmd = 4 → p.freq = q.freq ∧ p.extent = q.extent ∧ p.dir = q.dir ∧ p.exc = q.exc) ∧
  (p.cmd = 7 → p.aval = q.aval)

/-! ## Duties of the Host -/

/-- R151: the Host does not reset the core while a frame is in flight. -/
def NoResetInFrame (s : State) : Prop := s.busy = true → s.coming.rst = false

/-- R154: a command offered while the core is busy is offered again, unchanged, at the next edge. -/
def KeepsOffer (s : State) : Prop :=
  s.busy = true → s.coming.cmdValid = true →
    ∀ t, step s = .next t → t.coming.cmdValid = true ∧ decodePins t.coming = decodePins s.coming

/-- The Host does its duty at each of the next `n` edges. -/
def SafeRun : Nat → State → Prop
  | 0, _ => True
  | n + 1, s => NoResetInFrame s ∧ KeepsOffer s ∧ ∀ t, step s = .next t → SafeRun n t

/-- R152: `T_SETTLE` edges with nothing offered, then INIT first. A premise of claims about the driver only, of which the
model makes none. -/
def BootOrder (ps : List Pins) : Prop :=
  ∃ quiet p rest, ps = quiet ++ p :: rest ∧ Config.tSettle ≤ quiet.length ∧ (∀ q ∈ quiet, q.cmdValid = false) ∧
    decodePins p = .init

end Sys2Proof.Safety
end

