-- ==== Sys2Proof/Certificates/Slice0/Obligations.lean ====
section
/-! DEFINITION. The statements for the provers, from the numbered rules of spec/. -/

open Sys2Proof Sys2Proof.Machine Sys2Proof.Safety

/-! ## FENC (40_float_encoder.md) -/

/-- R72: the zero input gives the all-zero word. That no other input gives it and that minus zero is never returned is R78's
own derivation; at the minimum integer it rests on the spec's decision D7, which the model takes (log entry 16). -/
def Obligations.FencZeroIsPlusZero : Prop :=
  fEnc 0 = 0 ∧ (∀ v : Word, fEnc v = 0 → v = 0) ∧ ∀ v : Word, fEnc v ≠ 0x80000000

/-- R73 to R77 in exact arithmetic, on the unsigned magnitude of the spec's decision D7: with `m` the magnitude and `k` the
position of its leading 1, the word is the sign at bit 31, `k + 127` at bit 23 and the 23 bits below the leading 1, the bits
below those discarded. -/
def Obligations.FencWordByExactArithmetic : Prop :=
  ∀ v : Word, v ≠ 0 →
    let m := v.toInt.natAbs
    let k := Nat.log 2 m
    (fEnc v).toNat + 2 ^ 23 =
      (if v.toInt < 0 then 2 ^ 31 else 0) + (k + 127) * 2 ^ 23 + (if k < 23 then m * 2 ^ (23 - k) else m / 2 ^ (k - 23))

/-- R78 (the spec's own derivation): a nonzero input gives a normal number of exponent 127 to 158, its sign bit the input's. -/
def Obligations.FencReturnsNormalNumbers : Prop :=
  ∀ v : Word, v ≠ 0 →
    127 ≤ floatExp (fEnc v) ∧ floatExp (fEnc v) ≤ 158 ∧ floatSign (fEnc v) = v.getLsbD 31

/-- R80 (the spec's own derivation), the value: the word denotes the integer of the same sign whose magnitude is the input's
with the bits more than 23 places below its leading 1 cleared. -/
def Obligations.FencDenotesTruncatedInput : Prop :=
  ∀ v : Word,
    let m := v.toInt.natAbs
    let d := 2 ^ (Nat.log 2 m - 23)
    floatValue (fEnc v) = (if v.toInt < 0 then -1 else 1) * ((m / d * d : ℕ) : ℚ)

/-- R80 (the spec's own derivation), exactness: the word denotes the input exactly if and only if the input is zero, its
magnitude is below 2^24, or the discarded bits are all zero. -/
def Obligations.FencExactIffNothingIsDiscarded : Prop :=
  ∀ v : Word,
    floatValue (fEnc v) = (v.toInt : ℚ) ↔
      (v = 0 ∨ v.toInt.natAbs < 2 ^ 24 ∨ v.toInt.natAbs % 2 ^ (Nat.log 2 v.toInt.natAbs - 23) = 0)

/-- R80 (the spec's own derivation), the error, sign included: the denoted number lies between zero and the input, on the
input's side of zero; it differs from the input by at most `2^(msb-23) - 1` and by at most 127, and 127 is met at
`0x7FFFFFFF`. -/
def Obligations.FencErrorIsTowardZeroAndAtMost127 : Prop :=
  (∀ v : Word,
    (0 ≤ v.toInt → 0 ≤ floatValue (fEnc v) ∧ floatValue (fEnc v) ≤ (v.toInt : ℚ)) ∧
    (v.toInt ≤ 0 → (v.toInt : ℚ) ≤ floatValue (fEnc v) ∧ floatValue (fEnc v) ≤ 0) ∧
    |(v.toInt : ℚ) - floatValue (fEnc v)| ≤ 2 ^ (Nat.log 2 v.toInt.natAbs - 23) - 1 ∧
    |(v.toInt : ℚ) - floatValue (fEnc v)| ≤ 127) ∧
  floatValue (fEnc 0x7FFFFFFF) = 2147483647 - 127

/-- R81 (the spec's own derivation): negating the input flips the sign bit and nothing else. -/
def Obligations.FencNegationFlipsSignBit : Prop :=
  ∀ v : Word, v ≠ 0 → v ≠ 0x80000000 → fEnc (-v) = fEnc v ^^^ 0x80000000

/-- R82 (the spec's own derivation): on positive inputs FENC is monotone, and two inputs give one word exactly when they
differ in discarded bits only. -/
def Obligations.FencMonotoneOnPositives : Prop :=
  ∀ a b : Word, 0 < a.toInt → a.toInt ≤ b.toInt →
    (fEnc a).toNat ≤ (fEnc b).toNat ∧
    (fEnc a = fEnc b ↔
      Nat.log 2 a.toNat = Nat.log 2 b.toNat ∧
      a.toNat / 2 ^ (Nat.log 2 a.toNat - 23) = b.toNat / 2 ^ (Nat.log 2 b.toNat - 23))

/-- R79, the spec's decision D7 (log entry 16): the minimum integer gives the word of -2^31. -/
def Obligations.FencMinimumInteger : Prop :=
  fEnc 0x80000000 = 0xCF000000 ∧ floatValue (fEnc 0x80000000) = -2 ^ 31

/-- R85: the worked examples of the spec, and the wrong readings they refute (exponent `shift + 127`, rounding to nearest). -/
def Obligations.FencWorkedExamples : Prop :=
  fEnc 0 = 0x00000000 ∧ fEnc 1 = 0x3F800000 ∧ fEnc 0xFFFFFFFF = 0xBF800000 ∧ fEnc 15 = 0x41700000 ∧
  fEnc 18 = 0x41900000 ∧ fEnc 360 = 0x43B40000 ∧ fEnc 8388608 = 0x4B000000 ∧ fEnc 16777217 = 0x4B800000 ∧
  fEnc 16777219 = 0x4B800001 ∧ fEnc 2147483647 = 0x4EFFFFFF ∧ fEnc 0x80000000 = 0xCF000000 ∧
  fEnc 1 ≠ 0x34000000 ∧ fEnc 16777219 ≠ 0x4B800002 ∧ fEnc 2147483647 ≠ 0x4F000000

/-- R83 (the spec's own derivation): the encoder on decimals agrees with FENC on every positive integer a 32-bit signed
input can hold (the rule's upper end 2^31 is no such input, log entry 18). -/
def Obligations.FencAgreesWithDecimalEncoder : Prop :=
  ∀ n : Nat, 1 ≤ n → n < 2 ^ 31 → fEncQ (n : ℚ) = fEnc (BitVec.ofNat 32 n)

/-! ## AROM (41_angle_rom.md) -/

/-- R92, the rule AROM's contents obey: at each address AROM holds the word that the decimal encoder gives for the angle
there. The decimal encoder (R83) and the exponents and fractions of R92's table are the spec's own derivations; that an
address is the angle's position in the list, and that address 7 holds no word, is the spec's decision D9 (R91, R93). -/
def Obligations.AromHoldsDecimalEncodings : Prop :=
  (∀ a q w e frac,
    (a, q, w, e, frac) ∈
      ([(0, 9 / 10, 0x3F666666, 126, 0x666666), (1, 18 / 10, 0x3FE66666, 127, 0x666666),
        (2, 36 / 10, 0x40666666, 128, 0x666666), (3, 375 / 100, 0x40700000, 128, 0x700000),
        (4, 75 / 10, 0x40F00000, 129, 0x700000), (5, 15, 0x41700000, 130, 0x700000),
        (6, 18, 0x41900000, 131, 0x100000)] : List (BitVec 3 × ℚ × Word × Nat × Nat)) →
    aromAngle a = some q ∧ aromWord a = some w ∧ fEncQ q = w ∧ floatExp w = e ∧ floatFrac w = frac) ∧
  (∀ a q w, aromAngle a = some q → aromWord a = some w → w = fEncQ q) ∧ aromWord 7 = none

/-- R96 (the spec's own derivation): FENC gives the words of addresses 5 and 6, for 15 and 18, and of no other address. -/
def Obligations.FencMeetsAromAtFifteenAndEighteen : Prop :=
  aromWord 5 = some (fEnc 15) ∧ aromWord 6 = some (fEnc 18) ∧
  ∀ (a : BitVec 3) (v : Word), aromWord a = some (fEnc v) → (a = 5 ∧ v = 15) ∨ (a = 6 ∧ v = 18)

/-- R95: whatever the open parameter `SEL_MAP` is (log entry 17), a fixed-step angle selected by software loads the frame of
the AROM word at the address `SEL_MAP` gives, or is rejected with cause 2 where that address is 7. -/
def Obligations.SelectorGivesTableFrameOrRejection : Prop :=
  ∀ (n : Nat) (s : State), s.busy = false →
    ∃ t, exec (selectAngle n) s = .next t ∧
      ((∃ w, aromWord (Config.selMap n) = some w ∧
          Loads [0xA5, 0xFF, 0x05, 0x69, w.extractLsb' 0 8, w.extractLsb' 8 8, w.extractLsb' 16 8, w.extractLsb' 24 8] s t) ∨
        (Config.selMap n = 7 ∧ Rejects 2 s t))

/-! ## PACK (42_field_packer.md) -/

/-- R103: the four bytes add up to the word again, and different words have different bytes. -/
def Obligations.Pack32RoundTrip : Prop :=
  (∀ v : Word, ∃ b0 b1 b2 b3 : Byte, pack32 v = [b0, b1, b2, b3] ∧
    b0.toNat + b1.toNat * 2 ^ 8 + b2.toNat * 2 ^ 16 + b3.toNat * 2 ^ 24 = v.toNat) ∧
  ∀ v v' : Word, pack32 v = pack32 v' → v = v'

/-- R102 (the spec's own derivation): byte `i` is `(value >> 8*i) & 0xFF`, the shift arithmetic or logical. -/
def Obligations.Pack32ByteUnderEitherShift : Prop :=
  ∀ (v : Word) (i : Nat), i < 4 →
    (pack32 v)[i]? = some (((v >>> (8 * i)) &&& 0xFF).setWidth 8) ∧
    (pack32 v)[i]? = some (((v.sshiftRight (8 * i)) &&& 0xFF).setWidth 8)

/-! ## Encodings (30_encoding.md) -/

/-- R52: the length of a frame is that of its format whatever the operands, and the four lengths are the only values of
`flen` while a frame is in flight. -/
def Obligations.FrameLengthFixedByFormat : Prop :=
  (∀ v i F, frame v i = .ok F → F.length = formatLength i) ∧
  (∀ s, FrameInv s → s.busy = true → s.flen.toNat = 3 ∨ s.flen.toNat = 4 ∨ s.flen.toNat = 8 ∨ s.flen.toNat = 14)

/-- R59: the headers the core emits, each by exactly the commands named; no opcode but these, so never `0x6D`. -/
def Obligations.HeadersAreThoseOfTheOpcodeMap : Prop :=
  ∀ v i F, i.isCommand = true → frame v i = .ok F →
    F[0]? = some 0xA5 ∧
    ((F[1]? = some 0xFE ∧ F[2]? = some 0x01 ∧ i = .init) ∨
     (F[1]? = some 0xFF ∧ F[2]? = some 0x05 ∧ F[3]? = some 0x69 ∧ ((∃ a, i = .setangle a) ∨ ∃ w, i = .setanglev w)) ∨
     (F[1]? = some 0xFF ∧ F[2]? = some 0x03 ∧
       ((F[3]? = some 0x6A ∧ ∃ f x d e, i = .rotdeg f x d e) ∨ (F[3]? = some 0x6B ∧ ∃ f x d e, i = .rottime f x d e) ∨
        (F[3]? = some 0x6C ∧ ∃ f x d e, i = .rotstep f x d e) ∨ (F[3]? = some 0x6E ∧ i = .hold) ∨
        (F[3]? = some 0x6F ∧ i = .free))))

/-- R63: the machine's frame of a command is the encoder's word, and it matches the command's row of the opcode table. -/
def Obligations.FramesMatchTheirTableRow : Prop :=
  ∀ v i F, i.isCommand = true → frame v i = .ok F → F = encode i ∧ (tableRow i).matches F = true

/-- R60 and R130: the commands that raise nothing are the legal ones. -/
def Obligations.LegalCommandsRaiseNothing : Prop :=
  ∀ (p : Params) (i : Instr), i.legal p = true ↔ ∃ F, frame p.validateEnums i = .ok F

/-- R51 to R56: every well-formed instruction's word decodes, to an instruction with that very word and to the instruction
itself unless the float encoder made its word; and to itself then too for a FENC input below 2^24 in magnitude. What else
the decoder chooses is the model's (log entry 13). -/
def Obligations.WireDecodeInvertsEncode : Prop :=
  ∀ (i : Instr) (rest : List Byte), i.wellFormed = true →
    ∃ j, decode (encode i ++ rest) = .ok (j, rest) ∧ encode j = encode i ∧
      ((∀ v, i ≠ .setanglev v ∧ i ≠ .fenc v) → j = i) ∧
      (∀ v : Word, i = .fenc v → v.toInt.natAbs < 2 ^ 24 → j = i)

/-- What decodes is exactly the word of a well-formed instruction, and the rest is what follows it. For the fixed bytes this
is R51 to R56 and R59; that an FA frame or a FENC word which no instruction encodes does not decode is the model's choice
(log entry 13): R63 counts every match under the mask as a word of the row, and R60 leaves reception undecided. -/
def Obligations.WireDecodeAcceptsOnlyEncodings : Prop :=
  ∀ (bs : List Byte) (i : Instr) (rest : List Byte), decode bs = .ok (i, rest) →
    i.wellFormed = true ∧ bs = encode i ++ rest

/-- R61 (the spec's own derivation): a stream that is a concatenation of frames, read from a frame boundary, is cut back
into these frames. -/
def Obligations.StreamCutsBackIntoFrames : Prop :=
  ∀ (p : Params) (cs : List Instr), (∀ c ∈ cs, c.isCommand = true ∧ c.legal p = true) →
    cutFrames cs.length (cs.flatMap (frameBytes p.validateEnums)) = some (cs.map (frameBytes p.validateEnums))

/-- Six words of opcode_table.json, written out, decode to their rows' instructions. Their numbering is R63's `match` order,
the first byte sent being the most significant, as log entry 12 deduces it. The seventh word, a frame header with opcode
`0x6D`, does not decode: that is the model's choice (log entry 13), for as 32 bits it matches the FENC row's all-zero mask;
R59 and R60 say only that the core never emits it, not that it is reserved or illegal. -/
def Obligations.TableWordsDecode : Prop :=
  decodeTableWord 24 0xA5FE01 = some .init ∧ decodeTableWord 32 0xA5FF036E = some .hold ∧
  decodeTableWord 32 0xA5FF036F = some .free ∧ decodeTableWord 64 0xA5FF05696666E63F = some (.setangle 1) ∧
  decodeTableWord 32 0xA5FF036D = none ∧
  decodeTableWord 112 0xA5FF036AE8030000680100000000 = some (.rotdeg 1000 360 0 0) ∧
  decodeTableWord 32 0x3F800000 = some (.fenc 1)

/-! ## The commands (43_frame_commands.md) -/

/-- R113: INIT, code 0, accepted by every idle core, loads `A5 FE 01`; no other command's frame has CLASS `0xFE`. -/
def Obligations.InitLoadsItsFrame : Prop :=
  (∀ s : State, s.busy = false → ∃ t, exec .init s = .next t ∧ Loads [0xA5, 0xFE, 0x01] s t) ∧
  (∀ v i F, frame v i = .ok F → F[1]? = some 0xFE → i = .init) ∧
  ∀ p : Pins, p.cmdValid = true → p.cmd = 0 → decodePins p = .init

/-- R114: SETANGLE, code 1, loads the header and the AROM word, low byte first; address 7 raises cause 2 and writes nothing
(the action of raising is R131's, the spec's decisions D13 and D14). -/
def Obligations.SetangleLoadsAromWord : Prop :=
  (∀ p : Pins, p.cmdValid = true → p.cmd = 1 → decodePins p = .setangle p.asel) ∧
  ∀ (asel : BitVec 3) (s : State), s.busy = false →
    (∀ w, aromWord asel = some w →
      ∃ t, exec (.setangle asel) s = .next t ∧
        Loads [0xA5, 0xFF, 0x05, 0x69, w.extractLsb' 0 8, w.extractLsb' 8 8, w.extractLsb' 16 8, w.extractLsb' 24 8] s t) ∧
    (asel = 7 → ∃ t, exec (.setangle asel) s = .next t ∧ Rejects 2 s t) ∧ (asel ≠ 7 → ∃ w, aromWord asel = some w)

/-- R115: ROTDEG, code 2, loads its fourteen bytes with the operands as they are; under `VALIDATE_ENUMS` it raises cause 3 for
`dir > 1` and else cause 4 for `exc > 1` (the action of raising is R131's, the spec's decisions D13 and D14). -/
def Obligations.RotdegLoadsRawOperands : Prop :=
  (∀ p : Pins, p.cmdValid = true → p.cmd = 2 → decodePins p = .rotdeg p.freq p.extent p.dir p.exc) ∧
  ∀ (freq extent : Word) (dir exc : Byte) (s : State), s.busy = false →
    ((s.params.validateEnums = false ∨ (dir.toNat ≤ 1 ∧ exc.toNat ≤ 1)) →
      ∃ t, exec (.rotdeg freq extent dir exc) s = .next t ∧
        Loads [0xA5, 0xFF, 0x03, 0x6A,
          freq.extractLsb' 0 8, freq.extractLsb' 8 8, freq.extractLsb' 16 8, freq.extractLsb' 24 8,
          extent.extractLsb' 0 8, extent.extractLsb' 8 8, extent.extractLsb' 16 8, extent.extractLsb' 24 8, dir, exc] s t) ∧
    (s.params.validateEnums = true ∧ 1 < dir.toNat →
      ∃ t, exec (.rotdeg freq extent dir exc) s = .next t ∧ Rejects 3 s t) ∧
    (s.params.validateEnums = true ∧ dir.toNat ≤ 1 ∧ 1 < exc.toNat →
      ∃ t, exec (.rotdeg freq extent dir exc) s = .next t ∧ Rejects 4 s t)

/-- R116: ROTTIME, code 3, as ROTDEG with opcode `0x6B`. -/
def Obligations.RottimeLoadsRawOperands : Prop :=
  (∀ p : Pins, p.cmdValid = true → p.cmd = 3 → decodePins p = .rottime p.freq p.extent p.dir p.exc) ∧
  ∀ (freq extent : Word) (dir exc : Byte) (s : State), s.busy = false →
    ((s.params.validateEnums = false ∨ (dir.toNat ≤ 1 ∧ exc.toNat ≤ 1)) →
      ∃ t, exec (.rottime freq extent dir exc) s = .next t ∧
        Loads [0xA5, 0xFF, 0x03, 0x6B,
          freq.extractLsb' 0 8, freq.extractLsb' 8 8, freq.extractLsb' 16 8, freq.extractLsb' 24 8,
          extent.extractLsb' 0 8, extent.extractLsb' 8 8, extent.extractLsb' 16 8, extent.extractLsb' 24 8, dir, exc] s t) ∧
    (s.params.validateEnums = true ∧ 1 < dir.toNat →
      ∃ t, exec (.rottime freq extent dir exc) s = .next t ∧ Rejects 3 s t) ∧
    (s.params.validateEnums = true ∧ dir.toNat ≤ 1 ∧ 1 < exc.toNat →
      ∃ t, exec (.rottime freq extent dir exc) s = .next t ∧ Rejects 4 s t)

/-- R117: ROTSTEP, code 4, as ROTDEG with opcode `0x6C`. -/
def Obligations.RotstepLoadsRawOperands : Prop :=
  (∀ p : Pins, p.cmdValid = true → p.cmd = 4 → decodePins p = .rotstep p.freq p.extent p.dir p.exc) ∧
  ∀ (freq extent : Word) (dir exc : Byte) (s : State), s.busy = false →
    ((s.params.validateEnums = false ∨ (dir.toNat ≤ 1 ∧ exc.toNat ≤ 1)) →
      ∃ t, exec (.rotstep freq extent dir exc) s = .next t ∧
        Loads [0xA5, 0xFF, 0x03, 0x6C,
          freq.extractLsb' 0 8, freq.extractLsb' 8 8, freq.extractLsb' 16 8, freq.extractLsb' 24 8,
          extent.extractLsb' 0 8, extent.extractLsb' 8 8, extent.extractLsb' 16 8, extent.extractLsb' 24 8, dir, exc] s t) ∧
    (s.params.validateEnums = true ∧ 1 < dir.toNat →
      ∃ t, exec (.rotstep freq extent dir exc) s = .next t ∧ Rejects 3 s t) ∧
    (s.params.validateEnums = true ∧ dir.toNat ≤ 1 ∧ 1 < exc.toNat →
      ∃ t, exec (.rotstep freq extent dir exc) s = .next t ∧ Rejects 4 s t)

/-- R118: HOLD, code 5, loads `A5 FF 03 6E`. -/
def Obligations.HoldLoadsItsFrame : Prop :=
  (∀ p : Pins, p.cmdValid = true → p.cmd = 5 → decodePins p = .hold) ∧
  ∀ s : State, s.busy = false → ∃ t, exec .hold s = .next t ∧ Loads [0xA5, 0xFF, 0x03, 0x6E] s t

/-- R119: FREE, code 6, loads `A5 FF 03 6F`. -/
def Obligations.FreeLoadsItsFrame : Prop :=
  (∀ p : Pins, p.cmdValid = true → p.cmd = 6 → decodePins p = .free) ∧
  ∀ s : State, s.busy = false → ∃ t, exec .free s = .next t ∧ Loads [0xA5, 0xFF, 0x03, 0x6F] s t

/-- R120, the spec's decision D11: SETANGLEV, code 7, loads SETANGLE's header and the float word of its operand; it never raises. -/
def Obligations.SetanglevLoadsFloatWord : Prop :=
  (∀ p : Pins, p.cmdValid = true → p.cmd = 7 → decodePins p = .setanglev p.aval) ∧
  ∀ (aval : Word) (s : State), s.busy = false →
    ∃ t, exec (.setanglev aval) s = .next t ∧
      Loads [0xA5, 0xFF, 0x05, 0x69, (fEnc aval).extractLsb' 0 8, (fEnc aval).extractLsb' 8 8,
        (fEnc aval).extractLsb' 16 8, (fEnc aval).extractLsb' 24 8] s t

/-- R62, R70, R84: FENC completes in every state, busy or idle: `fenc_out` reads `FEnc(v)`, no state element of the core and
no other input changes. That it is run as an instruction of its own is the model's choice (log entry 10). -/
def Obligations.FencPortReadsEncodedInput : Prop :=
  ∀ (v : Word) (s : State),
    ∃ t, exec (.fenc v) s = .next t ∧ t.fencOut = fEnc v ∧ SameCore s t ∧
      t.pins = { s.pins with fencIn := v } ∧ t.script = s.script ∧ t.draws = s.draws ∧ t.params = s.params

/-- R134 and R154 (the spec's decisions D4, D28; log entry 11): a command met by a busy core waits, and nothing changes. -/
def Obligations.BusyCoreLetsCommandWait : Prop :=
  ∀ (i : Instr) (s : State), i.isCommand = true → s.busy = true → exec i s = .next s

/-- R131, R122 (the spec's decisions D13 to D15): a command whose frame raises is consumed with the error flags alone
changed, the first cause kept. -/
def Obligations.RejectionChangesErrorFlagsAlone : Prop :=
  ∀ (i : Instr) (s : State) (c : ErrCause), s.busy = false → frame s.params.validateEnums i = .error c →
    ∃ t, exec i s = .next t ∧ Rejects c.code s t

/-- R133: a command that passes the checks has the same frame with them switched off; with them off only `asel = 7` raises. -/
def Obligations.EnumChecksOnlyReject : Prop :=
  (∀ i F, frame true i = .ok F → frame false i = .ok F) ∧
  (∀ i c, frame false i = .error c → i = .setangle 7 ∧ c = .angleIndexOutOfRange)

/-- R18, R30, R37: no instruction of its own extends the stream, and none touches the parameters or what the Host has in
store; the bytes of FBUF above its frame are as before. -/
def Obligations.InstructionFrame : Prop :=
  ∀ (i : Instr) (s t : State), exec i s = .next t →
    t.txLog = s.txLog ∧ t.script = s.script ∧ t.draws = s.draws ∧ t.params = s.params ∧
    (i.isCommand = true → t.pins = s.pins) ∧ (s.err = true → t.err = true ∧ t.errCause = s.errCause) ∧
    (∀ k, formatLength i ≤ k → t.fbuf.read k = s.fbuf.read k)

/-! ## The machine (10_state.md, 20_memory.md, 60_exceptions.md, 70_reset_and_hazards.md) -/

/-- R8, R111, R135: at an edge without reset an idle core runs the instruction on the input ports, after these have taken the
edge's levels; and the levels that offer an instruction run that instruction. That an edge with `cmd_valid` low runs FENC on
`fenc_in`, and that the levels of FENC run it, is the model's choice (log entry 10): by R62 FENC takes no step. -/
def Obligations.StepRunsDecodedInstruction : Prop :=
  (∀ s : State, s.coming.rst = false → s.busy = false → step s = exec (decodePins s.coming) s.takePins) ∧
  ∀ (s : State) (i : Instr) (p : Pins) (ps : List Pins),
    s.script = encodePins i p :: ps → p.rst = false → s.busy = false →
      step s = exec i { s with pins := encodePins i p, script := ps }

/-- R37 (the spec's decision D16): EMIT hands over the byte at the cursor, and goes on to the next byte or, after the last,
is idle; nothing else of the core changes while the frame goes on. -/
def Obligations.EmitHandsOverOneByte : Prop :=
  ∀ (s : State) (b : Byte), s.coming.rst = false → s.busy = true → s.coming.txReady = true →
    s.fbuf.read s.bidx.toNat = some b →
    ∃ t, step s = .next t ∧ t.txLog = s.txLog ++ [b] ∧ t.err = s.err ∧ t.errCause = s.errCause ∧ t.params = s.params ∧
      t.script = s.script.tail ∧ t.pins = s.coming ∧
      (s.bidx = s.flen - 1 → t.busy = false ∧ t.bidx = 0) ∧
      (s.bidx ≠ s.flen - 1 → t.busy = true ∧ t.bidx = s.bidx + 1 ∧ t.flen = s.flen ∧ t.fbuf = s.fbuf)

/-- R42, R156: while the transport is not ready nothing of the core changes and `tx_data` holds its value. -/
def Obligations.StallHoldsTheByte : Prop :=
  ∀ s : State, s.coming.rst = false → s.busy = true → s.coming.txReady = false →
    ∃ t, step s = .next t ∧ SameCore s t ∧ t.params = s.params ∧ t.txData = s.txData ∧ t.txValid = true ∧
      t.cmdReady = false

/-- R150, R151 (the spec's decisions D3, D20): a reset edge beats everything; the core is idle and without an error, the
observation starts afresh, and the frame in flight is lost. -/
def Obligations.ResetEdgeClearsTheCore : Prop :=
  ∀ s : State, s.coming.rst = true →
    ∃ t, step s = .next t ∧ t.busy = false ∧ t.bidx = 0 ∧ t.err = false ∧ t.errCause = 0 ∧ t.txLog = [] ∧
      outstanding t = [] ∧ t.params = s.params ∧ t.cmdReady = true ∧ t.txValid = false ∧ t.txData = none

/-- R21 (the spec's decision D3): the values the spec gives the state after reset. -/
def Obligations.ResetStateValues : Prop :=
  State.reset.busy = false ∧ State.reset.bidx = 0 ∧ State.reset.err = false ∧ State.reset.errCause = 0 ∧
  State.reset.txLog = [] ∧ State.reset.cmdReady = true ∧ State.reset.txValid = false ∧ State.reset.txData = none ∧
  (∀ k, State.reset.fbuf.read k = none) ∧ State.reset.params.validateEnums = false

/-- The invariants hold at reset. -/
def Obligations.InvariantsHoldAtReset : Prop :=
  FrameInv State.reset ∧ StreamInv State.reset ∧ ErrInv State.reset

/-- R20 items 1 to 3 (the spec's own derivation): every step keeps the invariant of the frame buffer, its cursor and its
length. That FBUF holds no value while idle is the model's (log entry 7). -/
def Obligations.StepKeepsFrameInvariant : Prop :=
  ∀ s t : State, FrameInv s → step s = .next t → FrameInv t

/-- R20 item 4 (the spec's own derivation): every step keeps the stream a concatenation of whole frames but for the bytes
still to come of the frame in flight. -/
def Obligations.StepKeepsStreamOfWholeFrames : Prop :=
  ∀ s t : State, FrameInv s → StreamInv s → step s = .next t → FrameInv t ∧ StreamInv t

/-- R15, R130, R131: every step keeps the legal values of the error flags. -/
def Obligations.StepKeepsErrorFlagsLegal : Prop :=
  ∀ s t : State, ErrInv s → step s = .next t → ErrInv t

/-- R32: every step keeps the canonical form of FBUF, in every state, reached or not. -/
def Obligations.StepKeepsMemoryForm : Prop :=
  ∀ s t : State, s.fbuf.wf = true → step s = .next t → t.fbuf.wf = true

/-- R137 (the spec's decision D14): without a reset an error, once recorded, stays, with its cause. -/
def Obligations.ErrorClearedOnlyByReset : Prop :=
  ∀ s t : State, step s = .next t → s.coming.rst = false → s.err = true → t.err = true ∧ t.errCause = s.errCause

/-- R8, R138: a step never refuses, and from a state that satisfies the invariant it never faults: there is a next state. -/
def Obligations.StepNeverStops : Prop :=
  (∀ (s : State) (r : Refusal), step s ≠ .refused r) ∧ ∀ s : State, FrameInv s → ∃ t, step s = .next t

/-- R84, R155: at every edge, whatever FSER does, `fenc_out` is the encoding of the level on `fenc_in`. -/
def Obligations.FencOutFollowsFencIn : Prop :=
  ∀ s t : State, step s = .next t → t.fencOut = fEnc s.coming.fencIn

/-- R38, R39: along every run without a reset the stream, with the bytes still to come of the frame in flight, grows by
exactly the frames of the commands accepted, whole, contiguous and in the order of acceptance. -/
def Obligations.StreamIsFramesInAcceptanceOrder : Prop :=
  ∀ (n : Nat) (s t : State), FrameInv s → NoReset n s → runEdges n s = .next t →
    t.txLog ++ outstanding t =
      s.txLog ++ outstanding s ++ (accepted n s).flatMap (frameBytes s.params.validateEnums)

/-- R37, R38, R42: whatever the pattern of readiness, the edges at which the transport is ready hand over the next bytes of
the frame in flight, in order and nothing else, and the core is idle when the last has gone; with no ready edge it hangs. -/
def Obligations.FrameDeliveredUnderAnyReadiness : Prop :=
  ∀ (s : State) (F : List Byte) (ps rest : List Pins), FrameInFlight s F → s.script = ps ++ rest →
    (∀ p ∈ ps, p.rst = false) → readyEdges ps.dropLast < F.length - s.bidx.toNat →
    ∃ t, runEdges ps.length s = .next t ∧ t.script = rest ∧ t.err = s.err ∧ t.errCause = s.errCause ∧
      t.params = s.params ∧ t.txLog = s.txLog ++ (F.drop s.bidx.toNat).take (readyEdges ps) ∧
      (readyEdges ps < F.length - s.bidx.toNat →
        FrameInFlight t F ∧ t.bidx.toNat = s.bidx.toNat + readyEdges ps) ∧
      (readyEdges ps = F.length - s.bidx.toNat → t.busy = false ∧ t.bidx = 0)

/-- R154 (the spec's decision D28), with the fairness premise of R42: a command that raises nothing, offered to a busy core
and still offered at the edge after the last byte has gone, is accepted at that edge, and its frame is in flight. -/
def Obligations.OfferedCommandIsAcceptedAfterTheFrame : Prop :=
  ∀ (s : State) (F G : List Byte) (ps rest : List Pins) (p : Pins) (i : Instr),
    FrameInFlight s F → s.script = ps ++ encodePins i p :: rest → (∀ q ∈ ps, q.rst = false) → p.rst = false →
    readyEdges ps.dropLast < F.length - s.bidx.toNat → readyEdges ps = F.length - s.bidx.toNat →
    i.isCommand = true → frame s.params.validateEnums i = .ok G →
    ∃ t, runEdges (ps.length + 1) s = .next t ∧ FrameInFlight t G ∧ t.bidx = 0 ∧
      t.txLog = s.txLog ++ F.drop s.bidx.toNat

/-- R151, R21 (the spec's decisions D3, D20), with R20 item 4: a reset edge driven by a Host that does its duty finds the
stream itself, with nothing outstanding, a concatenation of whole frames of legal commands, and the step answers the reset
state: idle, cursor 0, no error, no byte of FBUF with a value, the observation afresh, the parameters as before. -/
def Obligations.DutifulResetLosesNoByte : Prop :=
  ∀ s : State, FrameInv s → StreamInv s → NoResetInFrame s → s.coming.rst = true →
    (∃ cs : List Instr, (∀ c ∈ cs, c.isCommand = true ∧ c.legal s.params = true) ∧
      s.txLog = cs.flatMap (frameBytes s.params.validateEnums)) ∧
    ∃ t, step s = .next t ∧ t.busy = false ∧ t.bidx = 0 ∧ t.err = false ∧ t.errCause = 0 ∧
      (∀ k, t.fbuf.read k = none) ∧ t.txLog = [] ∧ outstanding t = [] ∧ t.params = s.params

/-- R154 (the spec's decisions D4, D28): a command kept on the port while the core is busy is neither dropped nor mixed: when
the core has become idle, the next edge without a reset runs that very command. -/
def Obligations.KeptOfferIsRunWhenIdle : Prop :=
  ∀ s t : State, KeepsOffer s → s.busy = true → s.coming.cmdValid = true → step s = .next t → t.busy = false →
    t.coming.rst = false → step t = exec (decodePins s.coming) t.takePins ∧ (decodePins s.coming).isCommand = true

/-- R112, R154, R155: of the inputs at an edge only `rst`, `tx_ready` and, with the core idle, `cmd_valid` and the operands
the offered command reads have any influence; the operands may change freely once the command is accepted. -/
def Obligations.OnlyOperandsReadHaveInfluence : Prop :=
  ∀ (s : State) (p q : Pins) (ps : List Pins) (t : State), p.rst = q.rst → p.txReady = q.txReady →
    (s.busy = false → p.cmdValid = q.cmdValid ∧ (p.cmdValid = true → AgreeOnRead p q)) →
    step { s with script := p :: ps } = .next t →
    ∃ t', step { s with script := q :: ps } = .next t' ∧ { t' with pins := t.pins } = t

/-- R15, R121, R134: a recorded error influences no later step but the error flags themselves. -/
def Obligations.RecordedErrorHasNoInfluence : Prop :=
  ∀ (s t : State) (e : Bool) (c : BitVec 3), step s = .next t →
    ∃ t', step { s with err := e, errCause := c } = .next t' ∧
      { t' with err := t.err, errCause := t.errCause } = t
end

