-- ==== Sys2Proof/Laws/Memory.lean ====
section
/-! SUPPORT. FBUF as a memory: what a read sees after a write, and that every memory operation keeps the canonical form. -/

namespace Sys2Proof.Machine

theorem Memory.read_write (m : Memory) (k j : Nat) (b : Byte) :
    (Memory.write m k b).read j = if k = j then some b else m.read j := by
  induction m with
  | nil => simp [Memory.write, Memory.read]
  | cons c m ih =>
    obtain ⟨a, x⟩ := c
    simp only [Memory.write]
    split
    · simp [Memory.read]
    · split
      · next heq => rw [heq]; by_cases h : a = j <;> simp [Memory.read, h]
      · simp only [Memory.read, ih]
        by_cases h1 : a = j
        · have : k ≠ j := by omega
          simp [h1, this]
        · simp [h1]

theorem Memory.read_writeFrom (bs : List Byte) (m : Memory) (k j : Nat) :
    (Memory.writeFrom m k bs).read j = if k ≤ j ∧ j < k + bs.length then bs[j - k]? else m.read j := by
  induction bs generalizing m k with
  | nil => have : ¬ (k ≤ j ∧ j < k) := by omega
           simp [Memory.writeFrom, this]
  | cons b bs ih =>
    rw [Memory.writeFrom, ih, Memory.read_write]
    by_cases h0 : k = j
    · subst h0; simp
    · by_cases h1 : k ≤ j
      · obtain ⟨d, rfl⟩ : ∃ d, j = k + 1 + d := ⟨j - k - 1, by omega⟩
        have e1 : k + 1 + d - k = d + 1 := by omega
        have e2 : k + 1 + d - (k + 1) = d := by omega
        have e3 : (k + 1 ≤ k + 1 + d ∧ k + 1 + d < k + 1 + bs.length) ↔
            (k ≤ k + 1 + d ∧ k + 1 + d < k + (b :: bs).length) := by
          simp only [List.length_cons]; omega
        simp only [e1, e2, e3, List.getElem?_cons_succ, h0, if_false]
      · have e1 : ¬ (k + 1 ≤ j ∧ j < k + 1 + bs.length) := by omega
        have e2 : ¬ (k ≤ j ∧ j < k + (b :: bs).length) := by omega
        simp only [e1, e2, h0, if_false]

theorem Memory.wfFrom_mono (m : Memory) (lo hi : Nat) (h : lo ≤ hi) (hm : Memory.wfFrom hi m = true) :
    Memory.wfFrom lo m = true := by
  cases m with
  | nil => rfl
  | cons c m => obtain ⟨a, x⟩ := c; simp [Memory.wfFrom] at hm ⊢; exact ⟨⟨by omega, hm.1.2⟩, hm.2⟩

theorem Memory.wfFrom_write (m : Memory) (lo k : Nat) (b : Byte) (hk : lo ≤ k) (hd : k < fbufDepth)
    (hm : Memory.wfFrom lo m = true) : Memory.wfFrom lo (Memory.write m k b) = true := by
  induction m generalizing lo with
  | nil => simp [Memory.write, Memory.wfFrom, hk, hd]
  | cons c m ih =>
    obtain ⟨a, x⟩ := c
    simp [Memory.wfFrom] at hm
    simp only [Memory.write]
    split
    · simp [Memory.wfFrom, hk, hd, hm.1.2, hm.2]; omega
    · split
      · subst_vars; simp [Memory.wfFrom, hm.1.1, hm.1.2, hm.2]
      · simp only [Memory.wfFrom, Bool.and_eq_true, decide_eq_true_eq]
        exact ⟨hm.1, ih (a + 1) (by omega) hm.2⟩

/-- A write inside FBUF keeps the canonical form. -/
theorem Memory.wf_write (m : Memory) (k : Nat) (b : Byte) (hd : k < fbufDepth) (hm : m.wf = true) :
    (Memory.write m k b).wf = true :=
  Memory.wfFrom_write m 0 k b (Nat.zero_le k) hd hm

/-- Consecutive writes inside FBUF keep the canonical form. -/
theorem Memory.wf_writeFrom (bs : List Byte) (m : Memory) (k : Nat) (hd : k + bs.length ≤ fbufDepth)
    (hm : m.wf = true) : (Memory.writeFrom m k bs).wf = true := by
  induction bs generalizing m k with
  | nil => exact hm
  | cons b bs ih =>
    simp only [List.length_cons] at hd
    exact ih _ (k + 1) (by omega) (Memory.wf_write m k b (by omega) hm)

/-- The memory of a discarded frame is in canonical form. -/
theorem Memory.wf_nil : Memory.wf [] = true := rfl

end Sys2Proof.Machine
end

