-- ==== Sys2Proof/Laws/State.lean ====
section
/-! SUPPORT. One lemma per field of State per update, true by unfolding, so that no later proof unfolds a record update. -/

namespace Sys2Proof.Machine

variable (s : State)

@[simp] theorem State.raiseInvalid_busy (c : ErrCause) : (s.raiseInvalid c).busy = s.busy := rfl
@[simp] theorem State.raiseInvalid_flen (c : ErrCause) : (s.raiseInvalid c).flen = s.flen := rfl
@[simp] theorem State.raiseInvalid_bidx (c : ErrCause) : (s.raiseInvalid c).bidx = s.bidx := rfl
@[simp] theorem State.raiseInvalid_fbuf (c : ErrCause) : (s.raiseInvalid c).fbuf = s.fbuf := rfl
@[simp] theorem State.raiseInvalid_err (c : ErrCause) : (s.raiseInvalid c).err = true := rfl
@[simp] theorem State.raiseInvalid_errCause (c : ErrCause) : (s.raiseInvalid c).errCause = causeAfter s.err s.errCause c.code := rfl
@[simp] theorem State.raiseInvalid_txLog (c : ErrCause) : (s.raiseInvalid c).txLog = s.txLog := rfl
@[simp] theorem State.raiseInvalid_pins (c : ErrCause) : (s.raiseInvalid c).pins = s.pins := rfl
@[simp] theorem State.raiseInvalid_script (c : ErrCause) : (s.raiseInvalid c).script = s.script := rfl
@[simp] theorem State.raiseInvalid_draws (c : ErrCause) : (s.raiseInvalid c).draws = s.draws := rfl
@[simp] theorem State.raiseInvalid_params (c : ErrCause) : (s.raiseInvalid c).params = s.params := rfl

@[simp] theorem State.loadFrame_busy (F : List Byte) : (s.loadFrame F).busy = true := rfl
@[simp] theorem State.loadFrame_flen (F : List Byte) : (s.loadFrame F).flen = BitVec.ofNat 4 F.length := rfl
@[simp] theorem State.loadFrame_bidx (F : List Byte) : (s.loadFrame F).bidx = 0 := rfl
@[simp] theorem State.loadFrame_fbuf (F : List Byte) : (s.loadFrame F).fbuf = s.fbuf.writeFrom 0 F := rfl
@[simp] theorem State.loadFrame_err (F : List Byte) : (s.loadFrame F).err = s.err := rfl
@[simp] theorem State.loadFrame_errCause (F : List Byte) : (s.loadFrame F).errCause = s.errCause := rfl
@[simp] theorem State.loadFrame_txLog (F : List Byte) : (s.loadFrame F).txLog = s.txLog := rfl
@[simp] theorem State.loadFrame_pins (F : List Byte) : (s.loadFrame F).pins = s.pins := rfl
@[simp] theorem State.loadFrame_script (F : List Byte) : (s.loadFrame F).script = s.script := rfl
@[simp] theorem State.loadFrame_draws (F : List Byte) : (s.loadFrame F).draws = s.draws := rfl
@[simp] theorem State.loadFrame_params (F : List Byte) : (s.loadFrame F).params = s.params := rfl

@[simp] theorem State.discardFrame_busy : (s.discardFrame).busy = false := rfl
@[simp] theorem State.discardFrame_flen : (s.discardFrame).flen = Config.freeFlen s.draws := rfl
@[simp] theorem State.discardFrame_bidx : (s.discardFrame).bidx = 0 := rfl
@[simp] theorem State.discardFrame_fbuf : (s.discardFrame).fbuf = [] := rfl
@[simp] theorem State.discardFrame_err : (s.discardFrame).err = s.err := rfl
@[simp] theorem State.discardFrame_errCause : (s.discardFrame).errCause = s.errCause := rfl
@[simp] theorem State.discardFrame_txLog : (s.discardFrame).txLog = s.txLog := rfl
@[simp] theorem State.discardFrame_pins : (s.discardFrame).pins = s.pins := rfl
@[simp] theorem State.discardFrame_script : (s.discardFrame).script = s.script := rfl
@[simp] theorem State.discardFrame_draws : (s.discardFrame).draws = s.draws + 1 := rfl
@[simp] theorem State.discardFrame_params : (s.discardFrame).params = s.params := rfl

@[simp] theorem State.tx_busy (b : Byte) : (s.tx b).busy = s.busy := rfl
@[simp] theorem State.tx_flen (b : Byte) : (s.tx b).flen = s.flen := rfl
@[simp] theorem State.tx_bidx (b : Byte) : (s.tx b).bidx = s.bidx := rfl
@[simp] theorem State.tx_fbuf (b : Byte) : (s.tx b).fbuf = s.fbuf := rfl
@[simp] theorem State.tx_err (b : Byte) : (s.tx b).err = s.err := rfl
@[simp] theorem State.tx_errCause (b : Byte) : (s.tx b).errCause = s.errCause := rfl
@[simp] theorem State.tx_txLog (b : Byte) : (s.tx b).txLog = s.txLog ++ [b] := rfl
@[simp] theorem State.tx_pins (b : Byte) : (s.tx b).pins = s.pins := rfl
@[simp] theorem State.tx_script (b : Byte) : (s.tx b).script = s.script := rfl
@[simp] theorem State.tx_draws (b : Byte) : (s.tx b).draws = s.draws := rfl
@[simp] theorem State.tx_params (b : Byte) : (s.tx b).params = s.params := rfl

@[simp] theorem State.resetCore_busy : (s.resetCore).busy = false := rfl
@[simp] theorem State.resetCore_flen : (s.resetCore).flen = Config.freeFlen s.draws := rfl
@[simp] theorem State.resetCore_bidx : (s.resetCore).bidx = 0 := rfl
@[simp] theorem State.resetCore_fbuf : (s.resetCore).fbuf = [] := rfl
@[simp] theorem State.resetCore_err : (s.resetCore).err = false := rfl
@[simp] theorem State.resetCore_errCause : (s.resetCore).errCause = 0 := rfl
@[simp] theorem State.resetCore_txLog : (s.resetCore).txLog = [] := rfl
@[simp] theorem State.resetCore_pins : (s.resetCore).pins = s.pins := rfl
@[simp] theorem State.resetCore_script : (s.resetCore).script = s.script := rfl
@[simp] theorem State.resetCore_draws : (s.resetCore).draws = s.draws + 1 := rfl
@[simp] theorem State.resetCore_params : (s.resetCore).params = s.params := rfl

@[simp] theorem State.takePins_busy : s.takePins.busy = s.busy := by
  unfold State.takePins; split <;> rfl
@[simp] theorem State.takePins_flen : s.takePins.flen = s.flen := by
  unfold State.takePins; split <;> rfl
@[simp] theorem State.takePins_bidx : s.takePins.bidx = s.bidx := by
  unfold State.takePins; split <;> rfl
@[simp] theorem State.takePins_fbuf : s.takePins.fbuf = s.fbuf := by
  unfold State.takePins; split <;> rfl
@[simp] theorem State.takePins_err : s.takePins.err = s.err := by
  unfold State.takePins; split <;> rfl
@[simp] theorem State.takePins_errCause : s.takePins.errCause = s.errCause := by
  unfold State.takePins; split <;> rfl
@[simp] theorem State.takePins_txLog : s.takePins.txLog = s.txLog := by
  unfold State.takePins; split <;> rfl
@[simp] theorem State.takePins_params : s.takePins.params = s.params := by
  unfold State.takePins; split <;> rfl
@[simp] theorem State.takePins_pins : s.takePins.pins = s.coming := by
  unfold State.takePins State.coming; split <;> rfl
@[simp] theorem State.takePins_script : s.takePins.script = s.script.tail := by
  unfold State.takePins; split <;> simp_all

theorem State.coming_cons (p : Pins) (ps : List Pins) (h : s.script = p :: ps) : s.coming = p := by
  simp [State.coming, h]
theorem State.takePins_cons (p : Pins) (ps : List Pins) (h : s.script = p :: ps) :
    s.takePins = { s with pins := p, script := ps } := by
  simp [State.takePins, h]

end Sys2Proof.Machine
end

