-- ==== Sys2Proof/Laws/Ops.lean ====
section
/-! SUPPORT. One lemma per shared operation that says once everything it can do, for later proofs to cite instead of
unfolding it: the frames of the commands, ACCEPT, EMIT, the edge. -/

namespace Sys2Proof.Machine

/-- No frame is longer than FBUF. -/
theorem frame_length_le (v : Bool) (i : Instr) (F : List Byte) (h : frame v i = .ok F) : F.length ≤ fbufDepth := by
  cases i <;> simp only [frame, rotate, angleByAddress] at h <;> (repeat' split at h) <;> simp at h <;> subst h <;>
    simp [frameFI, frameFN, frameFA, frameFR, pack32, pack8, fbufDepth]

/-- AROM holds a word at every address but 7 (R91, R93). -/
theorem aromWord_isSome (a : BitVec 3) : a = 7 ∨ (aromWord a).isSome = true := by
  revert a; decide

/-- Everything a lookup can do (R90). -/
theorem aromLookup_cases (a : BitVec 3) :
    (a = 7 ∧ aromWord a = none ∧ aromLookup a = .error .angleIndexOutOfRange) ∨
      (a ≠ 7 ∧ ∃ w, aromWord a = some w ∧ aromLookup a = .ok w) := by
  by_cases h : a = 7
  · subst h; exact .inl ⟨rfl, rfl, rfl⟩
  · obtain ⟨w, hw⟩ := Option.isSome_iff_exists.mp ((aromWord_isSome a).resolve_left h)
    exact .inr ⟨h, w, hw, by simp [aromLookup, hw]⟩

/-- Everything the shared rotate frame can do (R110, R122). -/
theorem rotate_cases (v : Bool) (op : Byte) (f x : Word) (d e : Byte) :
    (v = true ∧ 1 < d.toNat ∧ rotate v op f x d e = .error .directionInvalid) ∨
    (v = true ∧ d.toNat ≤ 1 ∧ 1 < e.toNat ∧ rotate v op f x d e = .error .excitationInvalid) ∨
    ((v = false ∨ (d.toNat ≤ 1 ∧ e.toNat ≤ 1)) ∧ rotate v op f x d e = .ok (frameFR op f x d e)) := by
  unfold rotate
  cases v
  · simp
  · by_cases hd : 1 < d.toNat
    · simp [hd]
    · by_cases he : 1 < e.toNat <;> simp [hd, he] <;> omega

/-- Every command's meaning is ACCEPT of its `Frame` (R110, R111). -/
theorem exec_command (i : Instr) (s : State) (h : i.isCommand = true) :
    exec i s = accept (frame s.params.validateEnums i) s := by
  cases i <;> first | rfl | simp [Instr.isCommand] at h

/-- ACCEPT, idle, of a frame. -/
theorem accept_ok (s : State) (F : List Byte) (h : s.busy = false) : accept (.ok F) s = .next (s.loadFrame F) := by
  simp [accept, h]

/-- ACCEPT, idle, of an error. -/
theorem accept_error (s : State) (c : ErrCause) (h : s.busy = false) :
    accept (.error c) s = .next (s.raiseInvalid c) := by
  simp [accept, h]

/-- Everything ACCEPT can do. -/
theorem accept_cases (r : FrameResult) (s t : State) (h : accept r s = .next t) :
    (s.busy = true ∧ t = s) ∨ (s.busy = false ∧ ∃ c, r = .error c ∧ t = s.raiseInvalid c) ∨
      (s.busy = false ∧ ∃ F, r = .ok F ∧ t = s.loadFrame F) := by
  unfold accept at h
  split at h
  · next hb => exact .inl ⟨hb, by simpa using h.symm⟩
  · next hb =>
    have hb' : s.busy = false := by simpa using hb
    split at h
    · next c => exact .inr (.inl ⟨hb', c, rfl, by simpa using h.symm⟩)
    · next F => exact .inr (.inr ⟨hb', F, rfl, by simpa using h.symm⟩)

/-- A loaded frame stands in FBUF, and every other byte is as before. -/
theorem loads_loadFrame (s : State) (F : List Byte) (h : F.length ≤ fbufDepth) :
    Safety.Loads F s (s.loadFrame F) := by
  have h' : F.length ≤ 14 := h
  refine ⟨rfl, rfl, ?_, fun k hk => ?_, fun k hk => ?_, rfl, rfl, rfl, rfl, rfl, rfl, rfl⟩
  · simp only [State.loadFrame_flen, BitVec.toNat_ofNat]; omega
  · simp [Memory.read_writeFrom, hk]
  · have : ¬ k < F.length := by omega
    simp [Memory.read_writeFrom, this]

/-- The error action changes the two flags alone. -/
theorem rejects_raiseInvalid (s : State) (c : ErrCause) : Safety.Rejects c.code s (s.raiseInvalid c) :=
  ⟨rfl, rfl, rfl, rfl, rfl, rfl, rfl, rfl, rfl, rfl, rfl⟩

/-- Everything EMIT can do. -/
theorem emit_cases (s t : State) (h : emit s = .next t) :
    ∃ b, s.fbuf.read s.bidx.toNat = some b ∧
      ((s.bidx = s.flen - 1 ∧ t = (s.tx b).discardFrame) ∨
       (s.bidx ≠ s.flen - 1 ∧ t = { s.tx b with bidx := s.bidx + 1 })) := by
  unfold emit at h
  split at h
  · next b hb =>
    refine ⟨b, hb, ?_⟩
    have ht : t = (s.tx b).advance := by simpa using h.symm
    subst ht
    by_cases hl : s.bidx = s.flen - 1
    · exact .inl ⟨hl, if_pos hl⟩
    · exact .inr ⟨hl, if_neg hl⟩
  · split at h <;> cases h

/-- EMIT of a byte that stands in FBUF. -/
theorem emit_some (s : State) (b : Byte) (h : s.fbuf.read s.bidx.toNat = some b) :
    emit s = .next (s.tx b).advance := by
  simp [emit, h]

/-- Everything a step can do (R135). -/
theorem step_cases (s t : State) (h : step s = .next t) :
    (s.coming.rst = true ∧ t = s.takePins.resetCore) ∨
    (s.coming.rst = false ∧ s.busy = true ∧ s.coming.txReady = true ∧ emit s.takePins = .next t) ∨
    (s.coming.rst = false ∧ s.busy = true ∧ s.coming.txReady = false ∧ t = s.takePins) ∨
    (s.coming.rst = false ∧ s.busy = false ∧ exec (decodePins s.coming) s.takePins = .next t) := by
  unfold step edgeAt at h
  by_cases hr : s.coming.rst
  · simp [hr] at h; exact .inl ⟨hr, h.symm⟩
  · by_cases hb : s.busy
    · by_cases hx : s.coming.txReady
      · simp [hr, hb, hx] at h; exact .inr (.inl ⟨by simpa using hr, hb, hx, h⟩)
      · simp [hr, hb, hx] at h
        exact .inr (.inr (.inl ⟨by simpa using hr, hb, by simpa using hx, h.symm⟩))
    · simp [hr, hb] at h
      exact .inr (.inr (.inr ⟨by simpa using hr, by simpa using hb, h⟩))

end Sys2Proof.Machine
end

