-- ==== Sys2Proof/Laws/PerInstr.lean ====
section
/-! SUPPORT. The family PortRoundTrip: driving an instruction on the input ports and decoding the ports gives the
instruction back, whatever stands on the other inputs (30_encoding.md R57, 43_frame_commands.md R112). -/

namespace Sys2Proof.Laws.PortRoundTrip

/-- The port encoding of `i` decodes to `i`, for all levels of the inputs it does not use. -/
def Statement (i : Instr) : Prop := ∀ p : Pins, decodePins (encodePins i p) = i

theorem init : Statement .init := fun _ => rfl
theorem setangle (asel : BitVec 3) : Statement (.setangle asel) := fun _ => rfl
theorem rotdeg (freq extent : Word) (dir exc : Byte) : Statement (.rotdeg freq extent dir exc) := fun _ => rfl
theorem rottime (freq extent : Word) (dir exc : Byte) : Statement (.rottime freq extent dir exc) := fun _ => rfl
theorem rotstep (freq extent : Word) (dir exc : Byte) : Statement (.rotstep freq extent dir exc) := fun _ => rfl
theorem hold : Statement .hold := fun _ => rfl
theorem free : Statement .free := fun _ => rfl
theorem setanglev (aval : Word) : Statement (.setanglev aval) := fun _ => rfl
theorem fenc (v : Word) : Statement (.fenc v) := fun _ => rfl

end Sys2Proof.Laws.PortRoundTrip
end

