-- ==== Sys2Proof/Tests/Slice0.lean ====
section
/-! SUPPORT. Tests on fixed values, their expected results taken from spec/ (named in each comment), and for every statement
with hypotheses a witness that meets them. -/

namespace Sys2Proof.Tests

open Machine Safety

/-! ## Helpers -/

/-- The result is a next state that passes the check. -/
def nextIs (r : Result) (check : State → Bool) : Bool :=
  match r with
  | .next t => check t
  | .fault _ => false
  | .refused _ => false

/-- Idle, with `VALIDATE_ENUMS = true`. -/
def validating : State := { State.reset with params := { validateEnums := true } }

/-- HOLD's frame in flight, the byte at `k` next; the inputs `ps` to come. -/
def holding (k : BitVec 4) (ps : List Pins) : State :=
  { State.reset with
    busy := true, flen := 4, bidx := k, fbuf := [(0, 0xA5), (1, 0xFF), (2, 0x03), (3, 0x6E)], script := ps }

/-- A ready transport, nothing offered. -/
def ready : Pins := { Pins.low with txReady := true }

/-- Reset high. -/
def resetting : Pins := { Pins.low with rst := true }

/-! ## Well-formedness: an ill-formed term for each check -/

theorem test_wellFormed_refuses_asel7 : Instr.wellFormed (.setangle 7) = false := by decide
theorem test_wellFormed_accepts_asel6 : Instr.wellFormed (.setangle 6) = true := by decide
theorem test_legal_refuses_asel7 : Instr.legal ⟨false⟩ (.setangle 7) = false := by decide
theorem test_legal_refuses_dir2 : Instr.legal ⟨true⟩ (.rotdeg 1 1 2 1) = false := by decide
theorem test_legal_refuses_exc2 : Instr.legal ⟨true⟩ (.rottime 1 1 1 2) = false := by decide
theorem test_legal_refuses_dir2_step : Instr.legal ⟨true⟩ (.rotstep 1 1 2 0) = false := by decide
theorem test_legal_accepts_raw : Instr.legal ⟨false⟩ (.rotdeg 1 1 2 2) = true := by decide

/-! ## Decoding: words written out bit by bit from 30_encoding.md R53 to R56 and R50 -/

theorem test_decode_init : decodeTableWord 24 0b101001011111111000000001 = some .init := by decide
theorem test_decode_hold : decodeTableWord 32 0b10100101111111110000001101101110 = some .hold := by decide
theorem test_decode_free : decodeTableWord 32 0b10100101111111110000001101101111 = some .free := by decide
/-- 95_test_vectors.md section 3: `A5 FF 05 69 66 66 E6 3F`. -/
theorem test_decode_setangle :
    decodeTableWord 64 0b1010010111111111000001010110100101100110011001101110011000111111 = some (.setangle 1) := by
  decide
/-- Section 5: `A5 FF 05 69 00 00 80 BF` is SETANGLEV -1. -/
theorem test_decode_setanglev : decodeTableWord 64 0xA5FF0569000080BF = some (.setanglev 0xFFFFFFFF) := by decide
/-- Section 5: ROTDEG 1000, 360, 0, 0. -/
theorem test_decode_rotdeg : decodeTableWord 112 0xA5FF036AE8030000680100000000 = some (.rotdeg 1000 360 0 0) := by decide
/-- Section 5: every payload byte distinct. -/
theorem test_decode_rottime :
    decodeTableWord 112 0xA5FF036B78563412F0DEBC9A0001 = some (.rottime 0x12345678 0x9ABCDEF0 0 1) := by decide
/-- Section 5: ROTSTEP 100, -200, 1, 0; op byte `01101100` of R56. -/
theorem test_decode_rotstep :
    decodeTableWord 112 0xA5FF036C6400000038FFFFFF0100 = some (.rotstep 100 0xFFFFFF38 1 0) := by decide
/-- R50: sign 0, exponent 01111111, fraction 0 is `FENC 1`. -/
theorem test_decode_fenc : decodeTableWord 32 0b00111111100000000000000000000000 = some (.fenc 1) := by decide
/-- R59: the core never emits opcode `0x6D`. That the decoder rejects the word is the model's choice (log entry 13). -/
theorem test_decode_refuses_6D : decodeTableWord 32 0xA5FF036D = none := by decide
/-- R51: no other CLASS. -/
theorem test_decode_refuses_class : decode [0xA5, 0xFD, 0x03, 0x6E] = .error .badClass := by decide
/-- R51: no other LEN_OR_FLAG. -/
theorem test_decode_refuses_flag : decode [0xA5, 0xFF, 0x04, 0x6E] = .error .badFlag := by decide
/-- R53: the initialization frame has one OPCODE. -/
theorem test_decode_refuses_initOpcode : decode [0xA5, 0xFE, 0x03] = .error .badInitOpcode := by decide
theorem test_decode_refuses_short : decode [0xA5, 0xFF, 0x03] = .error .truncated := by decide
/-- R78: FENC returns no word with exponent 104 (the false variant of C1). -/
theorem test_decode_refuses_floatWord : decode [0x34, 0x00, 0x00, 0x00] = .error .notAFloatWord := by decide
/-- 0.5 is neither in AROM nor a word of FENC. -/
theorem test_decode_refuses_angleWord :
    decode [0xA5, 0xFF, 0x05, 0x69, 0, 0, 0, 0x3F] = .error .notAnAngleWord := by decide

/-- R57: code 3 is ROTTIME, with its own operands and no others. -/
theorem test_port_rottime :
    decodePins { Pins.low with cmdValid := true, cmd := 3, freq := 500, extent := 10, dir := 1, asel := 7 } =
      .rottime 500 10 1 0 := by decide
/-- R57: code 7 is SETANGLEV. -/
theorem test_port_setanglev :
    decodePins { Pins.low with cmdValid := true, cmd := 7, aval := 18, asel := 7 } = .setanglev 18 := by decide
/-- R57: the codes in table order. -/
theorem test_port_codes :
    ([0, 1, 2, 4, 5, 6] : List (BitVec 3)).map (fun c => decodePins { Pins.low with cmdValid := true, cmd := c }) =
      [.init, .setangle 0, .rotdeg 0 0 0 0, .rotstep 0 0 0 0, .hold, .free] := by decide

/-! ## FENC, AROM, PACK: 95_test_vectors.md sections 2 to 4 -/

theorem test_fenc_small :
    ([0, 1, 0xFFFFFFFF, 2, 3, 5, 10, 90, 255, 256, 360, 0xFFFFFE98, 1000] : List Word).map fEnc =
      [0x00000000, 0x3F800000, 0xBF800000, 0x40000000, 0x40400000, 0x40A00000, 0x41200000, 0x42B40000, 0x437F0000,
       0x43800000, 0x43B40000, 0xC3B40000, 0x447A0000] := by decide
theorem test_fenc_large :
    ([0x007FFFFF, 0x00800000, 0x00800001, 0x00FFFFFF, 0x01000001, 0x01000003, 0x02000007, 0x075BCD15, 0xF8A432EB,
      0x40000001, 0xC0000000, 0x7FFFFFFF, 0x80000001, 0x80000000] : List Word).map fEnc =
      [0x4AFFFFFE, 0x4B000000, 0x4B000001, 0x4B7FFFFF, 0x4B800000, 0x4B800001, 0x4C000001, 0x4CEB79A2, 0xCCEB79A2,
       0x4E800000, 0xCE800000, 0x4EFFFFFF, 0xCEFFFFFF, 0xCF000000] := by decide
theorem test_arom :
    ([0, 1, 2, 3, 4, 5, 6, 7] : List (BitVec 3)).map aromWord =
      [some 0x3F666666, some 0x3FE66666, some 0x40666666, some 0x40700000, some 0x40F00000, some 0x41700000,
       some 0x41900000, none] := by decide
theorem test_pack :
    ([0x12345678, 0x00A50000, 0xFFFFFFFE, 0x80000000] : List Word).map pack32 =
      [[0x78, 0x56, 0x34, 0x12], [0, 0, 0xA5, 0], [0xFE, 0xFF, 0xFF, 0xFF], [0, 0, 0, 0x80]] := by decide

/-! ## One step: frames of section 5, the trace of section 6, program P3 to P5 of section 7 -/

theorem test_init :
    nextIs (exec .init State.reset) (fun t => t.busy && decide (t.flen = 3) &&
      decide (t.fbuf = [(0, 0xA5), (1, 0xFE), (2, 0x01)])) = true := by decide
theorem test_hold :
    nextIs (exec .hold State.reset) (fun t => decide (t.fbuf = [(0, 0xA5), (1, 0xFF), (2, 0x03), (3, 0x6E)])) = true := by
  decide
theorem test_free : nextIs (exec .free State.reset) (fun t => decide (t.fbuf.read 3 = some 0x6F)) = true := by decide
theorem test_setangle1 :
    nextIs (exec (.setangle 1) State.reset) (fun t => decide (t.flen = 8) &&
      decide ([4, 5, 6, 7].map t.fbuf.read = [some 0x66, some 0x66, some 0xE6, some 0x3F])) = true := by decide
/-- `SETANGLE 7` a second time: the cause stays, nothing is in flight. -/
theorem test_setangle7 :
    nextIs (exec (.setangle 7) { State.reset with err := true, errCause := 4 }) (fun t =>
      !t.busy && t.err && decide (t.errCause = 4) && decide (t.fbuf = [])) = true := by decide
theorem test_setanglev_truncates :
    nextIs (exec (.setanglev 16777219) State.reset) (fun t =>
      decide ([4, 5, 6, 7].map t.fbuf.read = [some 0x01, some 0x00, some 0x80, some 0x4B])) = true := by decide
theorem test_rotdeg_not_float :
    nextIs (exec (.rotdeg 1000 360 0 0) State.reset) (fun t => decide (t.flen = 14) &&
      decide ([3, 4, 5, 8, 9, 10].map t.fbuf.read =
        [some 0x6A, some 0xE8, some 0x03, some 0x68, some 0x01, some 0x00])) = true := by decide
/-- Program P4: cause 4 first, then kept although the second command's own would be 3. -/
theorem test_rotdeg_enum :
    nextIs (exec (.rotdeg 1 1 1 2) validating) (fun t => t.err && decide (t.errCause = 4) && !t.busy) = true := by decide
theorem test_rottime_dir_before_exc :
    nextIs (exec (.rottime 500 10 1 0) State.reset) (fun t =>
      decide ([3, 12, 13].map t.fbuf.read = [some 0x6B, some 0x01, some 0x00])) = true := by decide
/-- Section 5, last rows: out-of-range enums pass through; `dir` is checked first. -/
theorem test_rotstep_raw_enums :
    nextIs (exec (.rotstep 0 0 0xFF 0x02) State.reset) (fun t =>
      decide ([3, 12, 13].map t.fbuf.read = [some 0x6C, some 0xFF, some 0x02])) = true := by decide
theorem test_rotstep_dir_first :
    nextIs (exec (.rotstep 0 0 0xFF 0x02) validating) (fun t => decide (t.errCause = 3)) = true := by decide
theorem test_fenc_port :
    nextIs (exec (.fenc 1) (holding 1 [])) (fun t => decide (t.fencOut = 0x3F800000) && t.busy) = true := by decide

/-- Trace row 3: EMIT of the first byte. -/
theorem test_emit :
    nextIs (step (holding 0 [ready])) (fun t =>
      decide (t.txLog = [0xA5]) && decide (t.bidx = 1) && decide (t.txData = some 0xFF)) = true := by decide
/-- Trace row 8: EMIT of the last byte; `tx_data` is unspecified then. -/
theorem test_emit_last :
    nextIs (step (holding 3 [ready])) (fun t => !t.busy && decide (t.bidx = 0) && decide (t.txData = none)) = true := by
  decide
/-- Trace rows 2 and 4: a command offered while busy waits, and with the transport not ready nothing moves. -/
theorem test_stall :
    nextIs (step (holding 1 [encodePins .free Pins.low])) (fun t =>
      decide (t.bidx = 1) && decide (t.txLog = []) && decide (t.txData = some 0xFF)) = true := by decide
/-- Program P5: reset in mid-frame. -/
theorem test_reset_midframe :
    nextIs (step { holding 2 [{ ready with rst := true }] with txLog := [0xA5, 0xFF], err := true }) (fun t =>
      !t.busy && decide (t.txLog = []) && !t.err && decide (t.txData = none)) = true := by decide
/-- The model's fault on a byte that nothing has written (R21, U7). -/
theorem test_unwritten_byte_faults :
    emit { holding 3 [] with fbuf := [] } = .fault .fbufUnspecified := by rfl
/-- The model's fault outside FBUF (R32). -/
theorem test_index_14_faults : emit (holding 14 []) = .fault .fbufOutside := by rfl

/-- A table word placed for the fetch runs at the very next step. -/
theorem test_withFetchWord :
    nextIs (step (State.reset.withFetchWord 112 0xA5FF036B78563412F0DEBC9A0001)) (fun t =>
      t.busy && decide (t.flen = 14) && decide (t.fbuf.read 8 = some 0xF0)) = true := by decide
theorem test_withFetchWord_fenc :
    nextIs (step (State.reset.withFetchWord 32 0x4B800001)) (fun t => decide (t.fencOut = 0x4B800001)) = true := by decide

/-- A Host's offers of HOLD and of the rejected `SETANGLE 7`, with the edges HOLD's four bytes take. -/
theorem test_hostScript : (hostScript ⟨false⟩ [.hold, .setangle 7]).map (fun p => (p.cmdValid, p.txReady)) =
    [(true, false), (false, true), (false, true), (false, true), (false, true), (true, false)] := by decide

/-! ## Witnesses: the hypotheses of each statement are met -/

theorem holding_inFlight (k : BitVec 4) (hk : k.toNat < 4) (ps : List Pins) :
    FrameInFlight (holding k ps) [0xA5, 0xFF, 0x03, 0x6E] :=
  ⟨rfl, rfl, fun j hj => by
    have : j = 0 ∨ j = 1 ∨ j = 2 ∨ j = 3 := by simp at hj; omega
    rcases this with rfl | rfl | rfl | rfl <;> rfl, hk⟩

theorem holding_frameInv (k : BitVec 4) (hk : k.toNat < 4) (ps : List Pins) : FrameInv (holding k ps) :=
  ⟨rfl, fun h => (by cases h), fun _ => ⟨.hold, _, rfl, rfl, holding_inFlight k hk ps⟩⟩

theorem idle_streamInv (ps : List Pins) : StreamInv { State.reset with script := ps } := ⟨[], by simp, rfl⟩

theorem witness_FencZeroIsPlusZero : ∃ v : Word, fEnc v = 0 := ⟨0, by decide⟩
theorem witness_FencWordByExactArithmetic : ∃ v : Word, v ≠ 0 ∧ v.toInt < 0 := ⟨0x80000000, by decide⟩
theorem witness_FencReturnsNormalNumbers : ∃ v : Word, v ≠ 0 := ⟨1, by decide⟩
/-- Both signs, at the ends of their ranges, and zero, where the two clauses meet. -/
theorem witness_FencErrorIsTowardZeroAndAtMost127 :
    0 ≤ BitVec.toInt (0x7FFFFFFF : Word) ∧ BitVec.toInt (0x80000000 : Word) ≤ 0 ∧
    BitVec.toInt (0 : Word) = 0 ∧ fEnc 0 = 0 := by decide
theorem witness_FencNegationFlipsSignBit : ∃ v : Word, v ≠ 0 ∧ v ≠ 0x80000000 := ⟨0x7FFFFFFF, by decide⟩
theorem witness_FencMonotoneOnPositives : ∃ a b : Word, 0 < a.toInt ∧ a.toInt ≤ b.toInt ∧ a ≠ b :=
  ⟨16777216, 16777217, by decide⟩
theorem witness_FencAgreesWithDecimalEncoder : ∃ n : Nat, 1 ≤ n ∧ n < 2 ^ 31 := ⟨2 ^ 31 - 1, by decide⟩
theorem witness_AromHoldsDecimalEncodings : ∃ a q w, aromAngle a = some q ∧ aromWord a = some w := ⟨6, _, _, rfl, rfl⟩
theorem witness_FencMeetsAromAtFifteenAndEighteen : ∃ (a : BitVec 3) (v : Word), aromWord a = some (fEnc v) :=
  ⟨6, 18, by decide⟩
theorem witness_SelectorGivesTableFrameOrRejection : ∃ s : State, s.busy = false := ⟨State.reset, rfl⟩
theorem witness_Pack32RoundTrip : ∃ v v' : Word, pack32 v = pack32 v' := ⟨0xFFFFFFFF, 0xFFFFFFFF, rfl⟩
theorem witness_Pack32ByteUnderEitherShift : ∃ i : Nat, i < 4 := ⟨3, by decide⟩
theorem witness_FrameLengthFixedByFormat_frame : ∃ v i F, frame v i = .ok F := ⟨true, .rotdeg 1 1 1 1, _, rfl⟩
theorem witness_FrameLengthFixedByFormat_flen : ∃ s, FrameInv s ∧ s.busy = true :=
  ⟨holding 3 [], holding_frameInv 3 (by decide) [], rfl⟩
theorem witness_HeadersAreThoseOfTheOpcodeMap : ∃ v i F, Instr.isCommand i = true ∧ frame v i = .ok F :=
  ⟨false, .setangle 6, _, rfl, rfl⟩
theorem witness_FramesMatchTheirTableRow : ∃ v i F, Instr.isCommand i = true ∧ frame v i = .ok F :=
  ⟨false, .rotstep 1 2 3 4, _, rfl, rfl⟩
theorem witness_WireDecodeInvertsEncode : ∃ i : Instr, i.wellFormed = true ∧ ∀ v, i ≠ .setanglev v ∧ i ≠ .fenc v :=
  ⟨.setangle 6, rfl, fun _ => ⟨by simp, by simp⟩⟩
theorem witness_WireDecodeInvertsEncode_fenc : ∃ (i : Instr) (v : Word),
    i.wellFormed = true ∧ i = .fenc v ∧ v.toInt.natAbs < 2 ^ 24 := ⟨_, 0xFF000001, rfl, rfl, by decide⟩
theorem witness_WireDecodeAcceptsOnlyEncodings : ∃ bs i rest, decode bs = .ok (i, rest) :=
  ⟨[0xA5, 0xFF, 0x03, 0x6F, 0x00], .free, [0x00], by decide⟩
theorem witness_StreamCutsBackIntoFrames : ∀ c ∈ [Instr.init, .setangle 0, .rotdeg 1 1 1 1, .hold],
    c.isCommand = true ∧ c.legal ⟨true⟩ = true := by decide
theorem witness_InitLoadsItsFrame : State.reset.busy = false ∧ (∃ v i F, frame v i = .ok F ∧ F[1]? = some 0xFE) ∧
    ∃ p : Pins, p.cmdValid = true ∧ p.cmd = 0 :=
  ⟨rfl, ⟨false, .init, _, rfl, rfl⟩, ⟨encodePins .init Pins.low, rfl, rfl⟩⟩
theorem witness_SetangleLoadsAromWord : State.reset.busy = false ∧ (∃ w, aromWord 0 = some w) ∧
    (∃ w, aromWord 6 = some w) ∧ (∃ asel : BitVec 3, asel = 7) ∧ (∃ p : Pins, p.cmdValid = true ∧ p.cmd = 1) :=
  ⟨rfl, ⟨_, rfl⟩, ⟨_, rfl⟩, ⟨7, rfl⟩, ⟨encodePins (.setangle 6) Pins.low, rfl, rfl⟩⟩
/-- The three clauses of RotdegLoadsRawOperands, RottimeLoadsRawOperands and RotstepLoadsRawOperands at their boundaries: 255 passes unchecked, 1 passes, 2 does not. -/
theorem witness_RotateLoadsRawOperands :
    (State.reset.busy = false ∧ State.reset.params.validateEnums = false) ∧
    (validating.busy = false ∧ validating.params.validateEnums = true) ∧
    (∃ dir exc : Byte, dir.toNat ≤ 1 ∧ exc.toNat ≤ 1 ∧ dir = 1 ∧ exc = 1) ∧
    (∃ dir : Byte, 1 < dir.toNat ∧ dir = 2) ∧ (∃ dir exc : Byte, dir.toNat ≤ 1 ∧ 1 < exc.toNat ∧ dir = 1 ∧ exc = 2) ∧
    [Instr.rotdeg 0 0 0 0, .rottime 0 0 0 0, .rotstep 0 0 0 0].map
      (fun i => ((encodePins i Pins.low).cmdValid, (encodePins i Pins.low).cmd)) = [(true, 2), (true, 3), (true, 4)] :=
  ⟨⟨rfl, rfl⟩, ⟨rfl, rfl⟩, ⟨1, 1, by decide⟩, ⟨2, by decide⟩, ⟨1, 2, by decide⟩, by decide⟩
theorem witness_HoldFreeLoadTheirFrames : State.reset.busy = false ∧ (encodePins .hold Pins.low).cmd = 5 ∧
    (encodePins .free Pins.low).cmd = 6 := ⟨rfl, rfl, rfl⟩
theorem witness_SetanglevLoadsFloatWord : State.reset.busy = false ∧ (encodePins (.setanglev 1) Pins.low).cmd = 7 :=
  ⟨rfl, rfl⟩
theorem witness_BusyCoreLetsCommandWait : Instr.isCommand .hold = true ∧ (holding 0 []).busy = true := ⟨rfl, rfl⟩
theorem witness_RejectionChangesErrorFlagsAlone :
    (State.reset.busy = false ∧ frame State.reset.params.validateEnums (.setangle 7) = .error .angleIndexOutOfRange) ∧
    (validating.busy = false ∧ frame validating.params.validateEnums (.rotdeg 0 0 2 2) = .error .directionInvalid) :=
  ⟨⟨rfl, rfl⟩, ⟨rfl, rfl⟩⟩
theorem witness_EnumChecksOnlyReject : (∃ F, frame true (.rotdeg 0 0 1 1) = .ok F) ∧
    frame false (.setangle 7) = .error .angleIndexOutOfRange := ⟨⟨_, rfl⟩, rfl⟩
theorem witness_InstructionFrame : (∃ t, exec .init State.reset = .next t) ∧ (∃ t, exec (.fenc 5) (holding 0 []) = .next t) ∧
    ∃ t, exec (.setangle 7) { State.reset with err := true } = .next t := ⟨⟨_, rfl⟩, ⟨_, rfl⟩, ⟨_, rfl⟩⟩
theorem witness_StepRunsDecodedInstruction : ∃ (s : State) (p : Pins),
    s.script = encodePins .hold p :: [] ∧ p.rst = false ∧ s.busy = false ∧ s.coming.rst = false :=
  ⟨{ State.reset with script := [encodePins .hold Pins.low] }, Pins.low, rfl, rfl, rfl, rfl⟩
/-- EMIT of a byte that is not the last, and of the last one. -/
theorem witness_EmitHandsOverOneByte : ∀ k ∈ ([0, 3] : List (BitVec 4)),
    (holding k [ready]).coming.rst = false ∧ (holding k [ready]).busy = true ∧
    (holding k [ready]).coming.txReady = true ∧ ((holding k [ready]).fbuf.read k.toNat).isSome = true := by decide
theorem witness_StallHoldsTheByte : (holding 0 [Pins.low]).coming.rst = false ∧ (holding 0 [Pins.low]).busy = true ∧
    (holding 0 [Pins.low]).coming.txReady = false := ⟨rfl, rfl, rfl⟩
theorem witness_ResetEdgeClearsTheCore : (holding 2 [resetting]).coming.rst = true := rfl
theorem witness_StepKeepsFrameInvariant : FrameInv (holding 3 [ready]) ∧ ∃ t, step (holding 3 [ready]) = .next t :=
  ⟨holding_frameInv 3 (by decide) _, _, rfl⟩
theorem witness_StepKeepsStreamOfWholeFrames : ∃ s t, FrameInv s ∧ StreamInv s ∧ step s = .next t :=
  ⟨{ State.reset with script := [encodePins .hold Pins.low] }, _, ⟨rfl, fun _ => ⟨rfl, rfl⟩, fun h => by cases h⟩,
    idle_streamInv _, rfl⟩
theorem witness_StepKeepsErrorFlagsLegal : ∃ s t, ErrInv s ∧ s.err = true ∧ step s = .next t :=
  ⟨{ State.reset with err := true, errCause := 2, script := [ready] }, _,
    ⟨by simp, by simp⟩, rfl, rfl⟩
theorem witness_StepKeepsMemoryForm : (holding 0 [ready]).fbuf.wf = true ∧ ∃ t, step (holding 0 [ready]) = .next t :=
  ⟨rfl, _, rfl⟩
theorem witness_ErrorClearedOnlyByReset : ∃ s t, step s = .next t ∧ s.coming.rst = false ∧ s.err = true :=
  ⟨{ State.reset with err := true, errCause := 3, script := [encodePins (.setangle 7) Pins.low] }, _, rfl, rfl, rfl⟩
theorem witness_StepNeverStops : FrameInv (holding 2 []) := holding_frameInv 2 (by decide) []
theorem witness_FencOutFollowsFencIn : ∃ t, step (holding 0 [{ ready with fencIn := 1 }]) = .next t := ⟨_, rfl⟩
theorem witness_StreamIsFramesInAcceptanceOrder : ∃ t, FrameInv (holding 3 [ready, encodePins .free Pins.low]) ∧
    NoReset 2 (holding 3 [ready, encodePins .free Pins.low]) ∧
    runEdges 2 (holding 3 [ready, encodePins .free Pins.low]) = .next t :=
  ⟨_, holding_frameInv 3 (by decide) _,
    ⟨rfl, fun t h => by
      obtain rfl : _ = t := by injection h
      exact ⟨rfl, fun _ _ => trivial⟩⟩, rfl⟩
/-- One edge short of the end of the frame, and at its end. -/
theorem witness_FrameDeliveredUnderAnyReadiness : ∀ ps ∈ [[Pins.low, ready], [ready, Pins.low, ready]],
    FrameInFlight (holding 2 (ps ++ [resetting])) [0xA5, 0xFF, 0x03, 0x6E] ∧ (∀ p ∈ ps, p.rst = false) ∧
    readyEdges ps.dropLast < 4 - (holding 2 (ps ++ [resetting])).bidx.toNat := by
  intro ps hps
  refine ⟨holding_inFlight 2 (by decide) _, ?_⟩
  revert ps
  decide
theorem witness_OfferedCommandIsAcceptedAfterTheFrame :
    FrameInFlight (holding 3 [ready, encodePins .free Pins.low]) [0xA5, 0xFF, 0x03, 0x6E] ∧
    (∀ q ∈ [ready], q.rst = false) ∧ Pins.low.rst = false ∧ readyEdges [ready].dropLast < 4 - 3 ∧ readyEdges [ready] = 4 - 3 ∧
    Instr.isCommand .free = true ∧ ∃ G, frame (holding 3 []).params.validateEnums .free = .ok G :=
  ⟨holding_inFlight 3 (by decide) _, by decide, rfl, by decide, by decide, rfl, _, rfl⟩
/-- HOLD's frame has gone out whole, and the Host resets the idle core. -/
theorem witness_DutifulResetLosesNoByte : ∃ s : State,
    FrameInv s ∧ StreamInv s ∧ NoResetInFrame s ∧ s.coming.rst = true ∧ s.txLog ≠ [] :=
  ⟨{ State.reset with txLog := [0xA5, 0xFF, 0x03, 0x6E], script := [resetting] },
    ⟨rfl, fun _ => ⟨rfl, rfl⟩, fun h => (by cases h)⟩, ⟨[.hold], by decide, rfl⟩, fun h => (by cases h), rfl, by decide⟩
/-- The last byte of HOLD goes out while FREE is offered, and is offered again. -/
theorem witness_KeptOfferIsRunWhenIdle : ∃ s t, KeepsOffer s ∧ s.busy = true ∧ s.coming.cmdValid = true ∧
    step s = .next t ∧ t.busy = false ∧ t.coming.rst = false :=
  ⟨holding 3 [encodePins .free ready, encodePins .free Pins.low], _,
    fun _ _ t h => by
      obtain rfl : _ = t := by injection h
      exact ⟨rfl, rfl⟩, rfl, rfl, rfl, rfl, rfl⟩
/-- Two input levels that differ in what HOLD ignores, and any two while busy. -/
theorem witness_OnlyOperandsReadHaveInfluence : ∃ p q : Pins, p ≠ q ∧ p.rst = q.rst ∧ p.txReady = q.txReady ∧
    p.cmdValid = q.cmdValid ∧ p.cmdValid = true ∧ AgreeOnRead p q ∧
    (∃ t, step { State.reset with script := [p] } = .next t) ∧ ∃ t, step { holding 0 [] with script := [p] } = .next t :=
  ⟨encodePins .hold Pins.low, encodePins .hold { Pins.low with dir := 200, asel := 7 }, by decide, rfl, rfl, rfl, rfl,
    ⟨rfl, by decide, by decide, by decide⟩, ⟨_, rfl⟩, ⟨_, rfl⟩⟩
theorem witness_RecordedErrorHasNoInfluence : ∃ t, step (holding 0 [ready]) = .next t := ⟨_, rfl⟩

end Sys2Proof.Tests
end

section
/-! The frames of the commands, by format (30_encoding.md R52 to R56, R59): what a command that does not raise has built,
and from that its length and its header. -/

namespace Sys2Proof.Encoding

open Machine Safety

/-! ## What a frame that does not raise is -/

/-- The checks of `Rot` only reject: what passes them is the FR frame of the operands (R110). -/
theorem eq_frameFR_of_rotate_eq_ok {validate : Bool} {op : Byte} {freq extent : Word} {dir exc : Byte} {F : List Byte}
    (h : rotate validate op freq extent dir exc = .ok F) : F = frameFR op freq extent dir exc := by
  rcases rotate_cases validate op freq extent dir exc with ⟨-, -, hr⟩ | ⟨-, -, -, hr⟩ | ⟨-, hr⟩
  · cases hr.symm.trans h
  · cases hr.symm.trans h
  · exact Except.ok.inj (h.symm.trans hr)

/-- SETANGLE gives a frame exactly where AROM holds a word: the FA frame of that word (R114). -/
theorem angleByAddress_eq_ok_iff {asel : BitVec 3} {F : List Byte} :
    angleByAddress asel = .ok F ↔ ∃ w, aromWord asel = some w ∧ F = frameFA w := by
  rcases aromLookup_cases asel with ⟨-, hw, hl⟩ | ⟨-, w, hw, hl⟩
  · simp [angleByAddress, hw, hl]
  · simp [angleByAddress, hw, hl, eq_comm]

/-! ## Lengths (R52) -/

theorem frame_length {validate : Bool} {i : Instr} {F : List Byte} (h : frame validate i = .ok F) :
    F.length = formatLength i := by
  cases i with
  | init | hold | free | setanglev _ | fenc _ =>
    obtain rfl := Except.ok.inj h
    rfl
  | setangle asel =>
    obtain ⟨w, -, rfl⟩ := angleByAddress_eq_ok_iff.mp h
    rfl
  | rotdeg _ _ _ _ | rottime _ _ _ _ | rotstep _ _ _ _ =>
    obtain rfl := eq_frameFR_of_rotate_eq_ok h
    rfl

theorem formatLength_of_isCommand {i : Instr} (h : i.isCommand = true) :
    formatLength i = 3 ∨ formatLength i = 4 ∨ formatLength i = 8 ∨ formatLength i = 14 := by
  cases i with
  | init => exact .inl rfl
  | hold | free => exact .inr (.inl rfl)
  | setangle _ | setanglev _ => exact .inr (.inr (.inl rfl))
  | rotdeg _ _ _ _ | rottime _ _ _ _ | rotstep _ _ _ _ => exact .inr (.inr (.inr rfl))
  | fenc _ => cases h

/-- In flight, `flen` is the length of the format of some command (R12, R52). -/
theorem flen_eq_formatLength {s : State} (hs : FrameInv s) (hb : s.busy = true) :
    ∃ c : Instr, c.isCommand = true ∧ s.flen.toNat = formatLength c := by
  obtain ⟨c, F, hc, hF, hflight⟩ := hs.inFlight hb
  exact ⟨c, hc, hflight.length.trans (frame_length hF)⟩

/-- Settles O17: a frame has its format's length, and a frame in flight is that of some command. -/
theorem frameLengthFixedByFormat : Obligations.FrameLengthFixedByFormat := by
  refine ⟨fun _ _ _ hF => frame_length hF, fun s hs hb => ?_⟩
  obtain ⟨c, hc, hlen⟩ := flen_eq_formatLength hs hb
  rw [hlen]
  exact formatLength_of_isCommand hc

/-! ## Headers (R59) -/

/-- Settles O18: each command's frame is that of its format, whose first bytes are the row of R59. -/
theorem headersAreThoseOfTheOpcodeMap : Obligations.HeadersAreThoseOfTheOpcodeMap := by
  intro v i F hc hF
  cases i with
  | init =>
    obtain rfl := Except.ok.inj hF
    exact ⟨rfl, .inl ⟨rfl, rfl, rfl⟩⟩
  | setangle asel =>
    obtain ⟨w, -, rfl⟩ := angleByAddress_eq_ok_iff.mp hF
    exact ⟨rfl, .inr (.inl ⟨rfl, rfl, rfl, .inl ⟨asel, rfl⟩⟩)⟩
  | setanglev aval =>
    obtain rfl := Except.ok.inj hF
    exact ⟨rfl, .inr (.inl ⟨rfl, rfl, rfl, .inr ⟨aval, rfl⟩⟩)⟩
  | rotdeg freq extent dir exc =>
    obtain rfl := eq_frameFR_of_rotate_eq_ok hF
    exact ⟨rfl, .inr (.inr ⟨rfl, rfl, .inl ⟨rfl, freq, extent, dir, exc, rfl⟩⟩)⟩
  | rottime freq extent dir exc =>
    obtain rfl := eq_frameFR_of_rotate_eq_ok hF
    exact ⟨rfl, .inr (.inr ⟨rfl, rfl, .inr (.inl ⟨rfl, freq, extent, dir, exc, rfl⟩)⟩)⟩
  | rotstep freq extent dir exc =>
    obtain rfl := eq_frameFR_of_rotate_eq_ok hF
    exact ⟨rfl, .inr (.inr ⟨rfl, rfl, .inr (.inr (.inl ⟨rfl, freq, extent, dir, exc, rfl⟩))⟩)⟩
  | hold =>
    obtain rfl := Except.ok.inj hF
    exact ⟨rfl, .inr (.inr ⟨rfl, rfl, .inr (.inr (.inr (.inl ⟨rfl, rfl⟩)))⟩)⟩
  | free =>
    obtain rfl := Except.ok.inj hF
    exact ⟨rfl, .inr (.inr ⟨rfl, rfl, .inr (.inr (.inr (.inr ⟨rfl, rfl⟩)))⟩)⟩
  | fenc _ => cases hc

end Sys2Proof.Encoding
end

section
/-! The fields of the word FENC returns (40_float_encoder.md R77, R78): its exponent field is `msb + 127`, never 0. -/

namespace Sys2Proof.FloatEncoder

open Machine

theorem msbScan_le (m : Word) (n : Nat) : msbScan m n ≤ n := by
  induction n with
  | zero => exact Nat.le_refl 0
  | succ n ih =>
    rw [msbScan]
    split
    · exact Nat.le_refl _
    · exact Nat.le_succ_of_le ih

theorem msb32_le (m : Word) : msb32 m ≤ 31 := msbScan_le m 31

/-! ## The word of a nonzero input -/

@[simp] theorem floatExp_floatWord (s : BitVec 1) (e : BitVec 8) (frac : BitVec 23) :
    floatExp (floatWord s e frac) = e.toNat := by
  have hfield : (s ++ e ++ frac).extractLsb' 23 8 = e := by
    rw [BitVec.extractLsb'_append_eq_of_le (Nat.le_refl 23), BitVec.extractLsb'_append_eq_right]
  exact congrArg BitVec.toNat hfield

/-- The steps of R73 to R77, taken by every nonzero input (R71). -/
theorem fEnc_eq_floatWord {v : Word} (hv : v ≠ 0) :
    fEnc v = floatWord (fencSign v) (BitVec.ofNat 8 (msb32 (fencMag v) + 127))
      (fencFrac (fencMag v) (msb32 (fencMag v))) := if_neg hv

/-- R77: the bias is added with no wrap, for `msb` is a position in a 32-bit word. -/
theorem floatExp_fEnc {v : Word} (hv : v ≠ 0) : floatExp (fEnc v) = msb32 (fencMag v) + 127 := by
  have hmsb := msb32_le (fencMag v)
  rw [fEnc_eq_floatWord hv, floatExp_floatWord, BitVec.toNat_ofNat]
  omega

/-! ## Zero (R72, R78) -/

theorem fEnc_zero : fEnc 0 = 0 := rfl

/-- R78, the exponent's part: the exponent field 0, which both zero words have, is that of the input zero alone. -/
theorem floatExp_fEnc_eq_zero_iff {v : Word} : floatExp (fEnc v) = 0 ↔ v = 0 := by
  refine ⟨fun h => by_contra fun hv => ?_, fun h => h ▸ rfl⟩
  rw [floatExp_fEnc hv] at h
  exact Nat.succ_ne_zero _ h

/-- Settles O1: both zero words have exponent field 0, which only the input zero gives, and it gives plus zero. -/
theorem fencZeroIsPlusZero : Obligations.FencZeroIsPlusZero := by
  refine ⟨fEnc_zero, fun v hv => ?_, fun v hv => ?_⟩
  · exact floatExp_fEnc_eq_zero_iff.mp (by rw [hv]; rfl)
  · obtain rfl := (floatExp_fEnc_eq_zero_iff (v := v)).mp (by rw [hv]; rfl)
    exact absurd hv (by decide)

end Sys2Proof.FloatEncoder
end

section
/-! The packed bytes of a word (42_field_packer.md R100, R103): `unpack32` adds the bytes up and undoes `pack32`. -/

namespace Sys2Proof.FieldPacker

open Machine

theorem toNat_append_eq_mul_add {m n : Nat} (x : BitVec m) (y : BitVec n) :
    (x ++ y).toNat = x.toNat * 2 ^ n + y.toNat := by
  rw [BitVec.toNat_append, ← Nat.shiftLeft_add_eq_or_of_lt y.isLt, Nat.shiftLeft_eq]

/-- The sum of R103. -/
theorem unpack32_toNat (b0 b1 b2 b3 : Byte) : (unpack32 b0 b1 b2 b3).toNat =
    b0.toNat + b1.toNat * 2 ^ 8 + b2.toNat * 2 ^ 16 + b3.toNat * 2 ^ 24 := by
  simp only [unpack32, toNat_append_eq_mul_add]
  omega

/-- The bytes are adjacent slices, so from the top down they join into longer slices, up to the whole word. -/
@[simp] theorem unpack32_wordByte (v : Word) :
    unpack32 (wordByte v 0) (wordByte v 1) (wordByte v 2) (wordByte v 3) = v := by
  have h16 : wordByte v 3 ++ wordByte v 2 = v.extractLsb' 16 16 :=
    BitVec.extractLsb'_append_extractLsb'_eq_extractLsb' rfl
  have h8 : v.extractLsb' 16 16 ++ wordByte v 1 = v.extractLsb' 8 24 :=
    BitVec.extractLsb'_append_extractLsb'_eq_extractLsb' rfl
  have h0 : v.extractLsb' 8 24 ++ wordByte v 0 = v.extractLsb' 0 32 :=
    BitVec.extractLsb'_append_extractLsb'_eq_extractLsb' rfl
  rw [unpack32, h16, h8, h0, BitVec.extractLsb'_eq_self]

theorem wordByte_sum (v : Word) : (wordByte v 0).toNat + (wordByte v 1).toNat * 2 ^ 8 +
    (wordByte v 2).toNat * 2 ^ 16 + (wordByte v 3).toNat * 2 ^ 24 = v.toNat := by
  rw [← unpack32_toNat, unpack32_wordByte]

theorem pack32_injective : Function.Injective pack32 := by
  intro v v' h
  obtain ⟨h0, h1, h2, h3⟩ : wordByte v 0 = wordByte v' 0 ∧ wordByte v 1 = wordByte v' 1 ∧
      wordByte v 2 = wordByte v' 2 ∧ wordByte v 3 = wordByte v' 3 := by
    simpa [pack32] using h
  rw [← unpack32_wordByte v, h0, h1, h2, h3, unpack32_wordByte]

/-- Settles O15: `unpack32` adds the four bytes up and gives the word back, so equal bytes come from equal words. -/
theorem pack32RoundTrip : Obligations.Pack32RoundTrip :=
  ⟨fun v => ⟨_, _, _, _, rfl, wordByte_sum v⟩, fun _ _ h => pack32_injective h⟩

end Sys2Proof.FieldPacker
end

section
/-! The commands at an idle core (43_frame_commands.md R110 to R119): a command of the port is ACCEPT of its `Frame`, so it
loads the frame or raises the cause that `Frame` gives. -/

namespace Sys2Proof.FrameCommands

open Machine Safety Laws

/-! ## The codes of the command port (R57) -/

theorem decodePins_encodePins (i : Instr) (p : Pins) : decodePins (encodePins i p) = i := by
  cases i with
  | init => exact PortRoundTrip.init p
  | setangle asel => exact PortRoundTrip.setangle asel p
  | rotdeg freq extent dir exc => exact PortRoundTrip.rotdeg freq extent dir exc p
  | rottime freq extent dir exc => exact PortRoundTrip.rottime freq extent dir exc p
  | rotstep freq extent dir exc => exact PortRoundTrip.rotstep freq extent dir exc p
  | hold => exact PortRoundTrip.hold p
  | free => exact PortRoundTrip.free p
  | setanglev aval => exact PortRoundTrip.setanglev aval p
  | fenc v => exact PortRoundTrip.fenc v p

theorem pins_with_cmd_eq_self {p : Pins} {code : BitVec 3} (hv : p.cmdValid = true) (hc : p.cmd = code) :
    { p with cmdValid := true, cmd := code } = p := by
  rw [← hv, ← hc]

/-- The command of a code is the one for which `encodePins` drives that code; `hi` holds by `rfl` where the operands of `i`
are the ports' own. -/
theorem decodePins_of_cmd {i : Instr} {p : Pins} {code : BitVec 3} (hv : p.cmdValid = true) (hc : p.cmd = code)
    (hi : encodePins i p = { p with cmdValid := true, cmd := code }) : decodePins p = i := by
  have hp : encodePins i p = p := hi.trans (pins_with_cmd_eq_self hv hc)
  rw [← hp, decodePins_encodePins]

/-! ## What a command does to an idle core (R111, R131) -/

theorem exec_loads {i : Instr} {s : State} {F : List Byte} (hc : i.isCommand = true) (hb : s.busy = false)
    (hF : frame s.params.validateEnums i = .ok F) : ∃ t, exec i s = .next t ∧ Loads F s t := by
  refine ⟨s.loadFrame F, ?_, loads_loadFrame s F (frame_length_le _ i F hF)⟩
  rw [exec_command i s hc, hF, accept_ok s F hb]

/-- FENC, the one instruction that is no command, never raises. -/
theorem isCommand_of_frame_eq_error {validate : Bool} {i : Instr} {c : ErrCause} (h : frame validate i = .error c) :
    i.isCommand = true := by
  cases i with
  | fenc _ => cases h
  | _ => rfl

theorem exec_rejects {i : Instr} {s : State} {c : ErrCause} (hb : s.busy = false)
    (hF : frame s.params.validateEnums i = .error c) : ∃ t, exec i s = .next t ∧ Rejects c.code s t := by
  refine ⟨s.raiseInvalid c, ?_, rejects_raiseInvalid s c⟩
  rw [exec_command i s (isCommand_of_frame_eq_error hF), hF, accept_error s c hb]

/-! ## The commands without a payload (R113, R118, R119) -/

/-- CLASS `0xFE` is INIT's: every other header of R59 has CLASS `0xFF`, and FENC has no frame. -/
theorem eq_init_of_class_FE {validate : Bool} {i : Instr} {F : List Byte} (hF : frame validate i = .ok F)
    (hcls : F[1]? = some 0xFE) : i = .init := by
  have hc : i.isCommand = true := by
    cases i with
    | fenc _ =>
      obtain rfl := Except.ok.inj hF
      cases hcls
    | _ => rfl
  have hne : F[1]? ≠ some 0xFF := by
    rw [hcls]
    decide
  obtain ⟨-, ⟨-, -, hi⟩ | ⟨hFF, -⟩ | ⟨hFF, -⟩⟩ := Encoding.headersAreThoseOfTheOpcodeMap validate i F hc hF
  · exact hi
  · exact absurd hFF hne
  · exact absurd hFF hne

/-- Settles O25: INIT's frame is the FI frame. -/
theorem initLoadsItsFrame : Obligations.InitLoadsItsFrame :=
  ⟨fun _ hb => exec_loads rfl hb rfl, fun _ _ _ hF hcls => eq_init_of_class_FE hF hcls,
    fun _ hv hc => decodePins_of_cmd hv hc rfl⟩

/-- Settles O30: HOLD's frame is the FN frame of its opcode. -/
theorem holdLoadsItsFrame : Obligations.HoldLoadsItsFrame :=
  ⟨fun _ hv hc => decodePins_of_cmd hv hc rfl, fun _ hb => exec_loads rfl hb rfl⟩

/-- Settles O31: FREE's frame is the FN frame of its opcode. -/
theorem freeLoadsItsFrame : Obligations.FreeLoadsItsFrame :=
  ⟨fun _ hv hc => decodePins_of_cmd hv hc rfl, fun _ hb => exec_loads rfl hb rfl⟩

/-! ## SETANGLE (R114) -/

/-- Settles O26: the frame is that of the word AROM holds, and AROM holds one at every address but 7. -/
theorem setangleLoadsAromWord : Obligations.SetangleLoadsAromWord := by
  refine ⟨fun _ hv hc => decodePins_of_cmd hv hc rfl, fun asel s hb => ⟨fun w hw => ?_, fun h7 => ?_, fun h7 => ?_⟩⟩
  · exact exec_loads rfl hb (Encoding.angleByAddress_eq_ok_iff.mpr ⟨w, hw, rfl⟩)
  · subst h7
    exact exec_rejects (i := .setangle 7) (c := .angleIndexOutOfRange) hb rfl
  · exact Option.isSome_iff_exists.mp ((aromWord_isSome asel).resolve_left h7)

/-! ## The rotate commands (R115 to R117) -/

section Rotate

variable {validate : Bool} {op : Byte} {freq extent : Word} {dir exc : Byte}

theorem rotate_eq_ok (h : validate = false ∨ (dir.toNat ≤ 1 ∧ exc.toNat ≤ 1)) :
    rotate validate op freq extent dir exc = .ok (frameFR op freq extent dir exc) := by
  rcases h with rfl | ⟨hd, he⟩
  · rfl
  · simp [rotate, Nat.not_lt.mpr hd, Nat.not_lt.mpr he]

theorem rotate_eq_directionInvalid (hv : validate = true) (hd : 1 < dir.toNat) :
    rotate validate op freq extent dir exc = .error .directionInvalid := by
  simp [rotate, hv, hd]

theorem rotate_eq_excitationInvalid (hv : validate = true) (hd : dir.toNat ≤ 1) (he : 1 < exc.toNat) :
    rotate validate op freq extent dir exc = .error .excitationInvalid := by
  simp [rotate, hv, Nat.not_lt.mpr hd, he]

/-- What the three rotate commands share: any command whose `Frame` is `Rot` of an opcode loads the FR frame of the
operands, or is rejected by the first check that fails (R110, R122). -/
theorem exec_of_frame_eq_rotate {i : Instr} {s : State} (op : Byte) (hc : i.isCommand = true) (hb : s.busy = false)
    (hi : frame s.params.validateEnums i = rotate s.params.validateEnums op freq extent dir exc) :
    ((s.params.validateEnums = false ∨ (dir.toNat ≤ 1 ∧ exc.toNat ≤ 1)) →
      ∃ t, exec i s = .next t ∧ Loads (frameFR op freq extent dir exc) s t) ∧
    (s.params.validateEnums = true ∧ 1 < dir.toNat → ∃ t, exec i s = .next t ∧ Rejects 3 s t) ∧
    (s.params.validateEnums = true ∧ dir.toNat ≤ 1 ∧ 1 < exc.toNat → ∃ t, exec i s = .next t ∧ Rejects 4 s t) := by
  refine ⟨fun h => ?_, fun ⟨hv, hd⟩ => ?_, fun ⟨hv, hd, he⟩ => ?_⟩
  · exact exec_loads hc hb (hi.trans (rotate_eq_ok h))
  · exact exec_rejects hb (hi.trans (rotate_eq_directionInvalid hv hd))
  · exact exec_rejects hb (hi.trans (rotate_eq_excitationInvalid hv hd he))

end Rotate

/-- Settles O27: ROTDEG's frame is `Rot` of opcode `0x6A`. -/
theorem rotdegLoadsRawOperands : Obligations.RotdegLoadsRawOperands :=
  ⟨fun _ hv hc => decodePins_of_cmd hv hc rfl, fun _ _ _ _ _ hb => exec_of_frame_eq_rotate 0x6A rfl hb rfl⟩

/-- Settles O28: ROTTIME's frame is `Rot` of opcode `0x6B`. -/
theorem rottimeLoadsRawOperands : Obligations.RottimeLoadsRawOperands :=
  ⟨fun _ hv hc => decodePins_of_cmd hv hc rfl, fun _ _ _ _ _ hb => exec_of_frame_eq_rotate 0x6B rfl hb rfl⟩

/-- Settles O29: ROTSTEP's frame is `Rot` of opcode `0x6C`. -/
theorem rotstepLoadsRawOperands : Obligations.RotstepLoadsRawOperands :=
  ⟨fun _ hv hc => decodePins_of_cmd hv hc rfl, fun _ _ _ _ _ hb => exec_of_frame_eq_rotate 0x6C rfl hb rfl⟩

end Sys2Proof.FrameCommands
end

section
/-! Which commands raise, and with which cause (30_encoding.md R60, 60_exceptions.md R130, R131, R133). -/

namespace Sys2Proof.Legality

open Machine Safety

/-! ## Legal is what raises nothing -/

theorem enumsLegal_iff {dir exc : Byte} : enumsLegal dir exc = true ↔ dir.toNat ≤ 1 ∧ exc.toNat ≤ 1 := by
  simp [enumsLegal]

/-- The enum checks reject exactly the illegal rotate commands (R122, R133). -/
theorem enums_legal_iff_rotate_eq_ok (validate : Bool) (op : Byte) (freq extent : Word) (dir exc : Byte) :
    (!validate || enumsLegal dir exc) = true ↔ ∃ F, rotate validate op freq extent dir exc = .ok F := by
  rw [Bool.or_eq_true, Bool.not_eq_true', enumsLegal_iff]
  rcases rotate_cases validate op freq extent dir exc with ⟨rfl, hd, hr⟩ | ⟨rfl, hd, he, hr⟩ | ⟨hok, hr⟩
  · simp only [hr, reduceCtorEq, exists_false, false_or, iff_false]
    omega
  · simp only [hr, reduceCtorEq, exists_false, false_or, iff_false]
    omega
  · exact ⟨fun _ => ⟨_, hr⟩, fun _ => hok⟩

/-- R60 and R130: an instruction is legal exactly where its `Frame` does not raise. -/
theorem legal_iff_frame_eq_ok (p : Params) (i : Instr) : i.legal p = true ↔ ∃ F, frame p.validateEnums i = .ok F := by
  cases i with
  | init | hold | free | setanglev _ | fenc _ => exact ⟨fun _ => ⟨_, rfl⟩, fun _ => rfl⟩
  | setangle asel =>
    rcases aromLookup_cases asel with ⟨h7, hw, -⟩ | ⟨h7, w, hw, -⟩
    · refine iff_of_false (by simp [Instr.legal, h7]) fun ⟨F, hF⟩ => ?_
      obtain ⟨w, hw', -⟩ := Encoding.angleByAddress_eq_ok_iff.mp hF
      cases hw.symm.trans hw'
    · exact ⟨fun _ => ⟨_, Encoding.angleByAddress_eq_ok_iff.mpr ⟨w, hw, rfl⟩⟩, fun _ => decide_eq_true h7⟩
  | rotdeg _ _ _ _ | rottime _ _ _ _ | rotstep _ _ _ _ => exact enums_legal_iff_rotate_eq_ok _ _ _ _ _ _

/-- Settles O20: instruction by instruction, the check of legality is the check of its `Frame`. -/
theorem legalCommandsRaiseNothing : Obligations.LegalCommandsRaiseNothing := legal_iff_frame_eq_ok

theorem not_legal_of_frame_eq_error {p : Params} {i : Instr} {c : ErrCause} (h : frame p.validateEnums i = .error c) :
    i.legal p = false := by
  rw [← Bool.not_eq_true, legal_iff_frame_eq_ok, h]
  simp

/-! ## The causes (R130) -/

/-- Everything that raises: `asel = 7` under either setting, an enum check under `VALIDATE_ENUMS` alone. -/
theorem frame_eq_error_cases {validate : Bool} {i : Instr} {c : ErrCause} (h : frame validate i = .error c) :
    (i = .setangle 7 ∧ c = .angleIndexOutOfRange) ∨
      (validate = true ∧ (c = .directionInvalid ∨ c = .excitationInvalid)) := by
  have hrotate {op : Byte} {freq extent : Word} {dir exc : Byte}
      (h : rotate validate op freq extent dir exc = .error c) :
      validate = true ∧ (c = .directionInvalid ∨ c = .excitationInvalid) := by
    rcases rotate_cases validate op freq extent dir exc with ⟨hv, -, hr⟩ | ⟨hv, -, -, hr⟩ | ⟨-, hr⟩
    · exact ⟨hv, .inl (Except.error.inj (h.symm.trans hr))⟩
    · exact ⟨hv, .inr (Except.error.inj (h.symm.trans hr))⟩
    · cases hr.symm.trans h
  cases i with
  | init | hold | free | setanglev _ | fenc _ => cases h
  | setangle asel =>
    rcases aromLookup_cases asel with ⟨rfl, -, -⟩ | ⟨-, w, hw, -⟩
    · exact .inl ⟨rfl, (Except.error.inj h).symm⟩
    · cases (Encoding.angleByAddress_eq_ok_iff.mpr ⟨w, hw, rfl⟩).symm.trans h
  | rotdeg _ _ _ _ | rottime _ _ _ _ | rotstep _ _ _ _ => exact .inr (hrotate h)

/-- A frame that passes the enum checks does not depend on them (R133). -/
theorem frame_eq_ok_of_checked {i : Instr} {F : List Byte} (h : frame true i = .ok F) (validate : Bool) :
    frame validate i = .ok F := by
  cases i with
  | init | hold | free | setanglev _ | fenc _ | setangle _ => exact h
  | rotdeg _ _ dir exc | rottime _ _ dir exc | rotstep _ _ dir exc =>
    have henums := (enums_legal_iff_rotate_eq_ok _ _ _ _ _ _).mpr ⟨F, h⟩
    obtain rfl := Encoding.eq_frameFR_of_rotate_eq_ok h
    exact FrameCommands.rotate_eq_ok (.inr (enumsLegal_iff.mp (by simpa using henums)))

/-- Settles O36: the checks only reject, and with them off `asel = 7` alone is left to raise. -/
theorem enumChecksOnlyReject : Obligations.EnumChecksOnlyReject := by
  refine ⟨fun _ _ h => frame_eq_ok_of_checked h false, fun i c h => ?_⟩
  exact (frame_eq_error_cases h).resolve_right fun ⟨hv, _⟩ => Bool.false_ne_true hv

/-! ## What an instruction does (R111, R131, R154) -/

/-- Settles O35: every instruction that raises is a command, whose ACCEPT is the error action. -/
theorem rejectionChangesErrorFlagsAlone : Obligations.RejectionChangesErrorFlagsAlone :=
  fun _ _ _ hb hF => FrameCommands.exec_rejects hb hF

/-- Settles O32: SETANGLEV's frame is the FA frame of the float word. -/
theorem setanglevLoadsFloatWord : Obligations.SetanglevLoadsFloatWord :=
  ⟨fun _ hv hc => FrameCommands.decodePins_of_cmd hv hc rfl, fun _ _ hb => FrameCommands.exec_loads rfl hb rfl⟩

/-- Settles O14: whatever address `SEL_MAP` gives, the command is the SETANGLE of that address. -/
theorem selectorGivesTableFrameOrRejection : Obligations.SelectorGivesTableFrameOrRejection := by
  intro n s hb
  obtain ⟨hload, hreject, hword⟩ := FrameCommands.setangleLoadsAromWord.2 (Config.selMap n) s hb
  by_cases h7 : Config.selMap n = 7
  · obtain ⟨t, ht, hrej⟩ := hreject h7
    exact ⟨t, ht, .inr ⟨h7, hrej⟩⟩
  · obtain ⟨w, hw⟩ := hword h7
    obtain ⟨t, ht, hloads⟩ := hload w hw
    exact ⟨t, ht, .inl ⟨w, hw, hloads⟩⟩

theorem accept_of_busy (r : FrameResult) {s : State} (hb : s.busy = true) : accept r s = .next s := if_pos hb

/-- Settles O34: ACCEPT is not enabled while a frame is in flight. -/
theorem busyCoreLetsCommandWait : Obligations.BusyCoreLetsCommandWait :=
  fun i s hc hb => (exec_command i s hc).trans (accept_of_busy _ hb)

/-- Settles O33: FENC writes the level of `fenc_in` and nothing else. -/
theorem fencPortReadsEncodedInput : Obligations.FencPortReadsEncodedInput :=
  fun v s => ⟨{ s with pins := { s.pins with fencIn := v } }, rfl, rfl,
    ⟨rfl, rfl, rfl, rfl, rfl, rfl, rfl⟩, rfl, rfl, rfl, rfl⟩

/-- Everything an instruction can do. -/
theorem exec_cases {i : Instr} {s t : State} (h : exec i s = .next t) :
    (∃ v, i = .fenc v ∧ t = { s with pins := { s.pins with fencIn := v } }) ∨
      (i.isCommand = true ∧
        (t = s ∨ (∃ c, t = s.raiseInvalid c) ∨ ∃ F, frame s.params.validateEnums i = .ok F ∧ t = s.loadFrame F)) := by
  cases hc : i.isCommand with
  | false =>
    cases i with
    | fenc v => exact .inl ⟨v, rfl, (Host.Outcome.next.inj h).symm⟩
    | _ => cases hc
  | true =>
    rw [exec_command i s hc] at h
    rcases accept_cases _ s t h with ⟨-, ht⟩ | ⟨-, c, -, ht⟩ | ⟨-, F, hF, ht⟩
    · exact .inr ⟨rfl, .inl ht⟩
    · exact .inr ⟨rfl, .inr (.inl ⟨c, ht⟩)⟩
    · exact .inr ⟨rfl, .inr (.inr ⟨F, hF, ht⟩)⟩

/-- Settles O37: by what an instruction can do; a loaded frame is as long as its format. -/
theorem instructionFrame : Obligations.InstructionFrame := by
  intro i s t h
  rcases exec_cases h with ⟨v, rfl, rfl⟩ | ⟨-, rfl | ⟨c, rfl⟩ | ⟨F, hF, rfl⟩⟩
  · exact ⟨rfl, rfl, rfl, rfl, fun hc => (by cases hc), fun he => ⟨he, rfl⟩, fun _ _ => rfl⟩
  · exact ⟨rfl, rfl, rfl, rfl, fun _ => rfl, fun he => ⟨he, rfl⟩, fun _ _ => rfl⟩
  · exact ⟨rfl, rfl, rfl, rfl, fun _ => rfl, fun he => ⟨rfl, by simp [causeAfter, he]⟩, fun _ _ => rfl⟩
  · obtain ⟨-, -, -, -, habove, -⟩ := loads_loadFrame s F (frame_length_le _ i F hF)
    exact ⟨rfl, rfl, rfl, rfl, fun _ => rfl, fun he => ⟨he, rfl⟩,
      fun k hk => habove k (Encoding.frame_length hF ▸ hk)⟩

/-- An instruction always has a next state. -/
theorem exists_exec_eq_next (i : Instr) (s : State) : ∃ t, exec i s = .next t := by
  cases hc : i.isCommand with
  | false =>
    cases i with
    | fenc v => exact ⟨_, rfl⟩
    | _ => cases hc
  | true =>
    rw [exec_command i s hc]
    cases hb : s.busy with
    | true => exact ⟨s, accept_of_busy _ hb⟩
    | false =>
      cases frame s.params.validateEnums i with
      | ok F => exact ⟨_, accept_ok s F hb⟩
      | error c => exact ⟨_, accept_error s c hb⟩

end Sys2Proof.Legality
end

section
/-! What one clock edge does to the core (10_state.md R10, 60_exceptions.md R135): one inversion lemma for the step, and
from it everything a single step keeps or changes. -/

namespace Sys2Proof.ClockEdge

open Machine Safety

/-! ## The instruction on the ports (R57) -/

@[simp] theorem decodePins_isCommand (p : Pins) : (decodePins p).isCommand = p.cmdValid := by
  unfold decodePins
  split
  · next hv => rw [hv]; split <;> rfl
  · next hv => simpa [Instr.isCommand] using hv

theorem decodePins_of_not_cmdValid {p : Pins} (hv : p.cmdValid = false) : decodePins p = .fenc p.fencIn := by
  simp [decodePins, hv]

@[simp] theorem encodePins_rst (i : Instr) (p : Pins) : (encodePins i p).rst = p.rst := by
  cases i <;> rfl

/-! ## Everything a step can do -/

/-- What the coming edge makes of the state `s`, one case per row of R135 and, of an idle core, per outcome of the
instruction on the ports. -/
inductive StepEffect (s : State) : State → Prop
  /-- RESET, R150 -/
  | reset (hr : s.coming.rst = true) : StepEffect s s.takePins.resetCore
  /-- EMIT of the last byte of the frame, R37 -/
  | lastByte (b : Byte) (hr : s.coming.rst = false) (hb : s.busy = true) (hx : s.coming.txReady = true)
      (hread : s.fbuf.read s.bidx.toNat = some b) (hlast : s.bidx = s.flen - 1) :
      StepEffect s (s.takePins.tx b).discardFrame
  /-- EMIT of a byte before the last, R37 -/
  | innerByte (b : Byte) (hr : s.coming.rst = false) (hb : s.busy = true) (hx : s.coming.txReady = true)
      (hread : s.fbuf.read s.bidx.toNat = some b) (hlast : s.bidx ≠ s.flen - 1) :
      StepEffect s { s.takePins.tx b with bidx := s.bidx + 1 }
  /-- the transport of a frame in flight is not ready, R42 -/
  | stall (hr : s.coming.rst = false) (hb : s.busy = true) (hx : s.coming.txReady = false) : StepEffect s s.takePins
  /-- a command that raises, R131 -/
  | rejected (c : ErrCause) (hr : s.coming.rst = false) (hb : s.busy = false)
      (hF : frame s.params.validateEnums (decodePins s.coming) = .error c) : StepEffect s (s.takePins.raiseInvalid c)
  /-- a successful ACCEPT, R111 -/
  | loaded (F : List Byte) (hr : s.coming.rst = false) (hb : s.busy = false) (hv : s.coming.cmdValid = true)
      (hF : frame s.params.validateEnums (decodePins s.coming) = .ok F) : StepEffect s (s.takePins.loadFrame F)
  /-- nothing offered: the FENC port alone, whose level the ports hold already (log entry 10) -/
  | noCommand (hr : s.coming.rst = false) (hb : s.busy = false) (hv : s.coming.cmdValid = false) :
      StepEffect s s.takePins

/-- An edge with nothing offered runs FENC on the level that `fenc_in` has taken already. -/
theorem exec_fenc_takePins (s : State) : exec (.fenc s.coming.fencIn) s.takePins = .next s.takePins := by
  rw [← State.takePins_pins]
  rfl

theorem advance_of_last {s : State} (h : s.bidx = s.flen - 1) : s.advance = s.discardFrame := if_pos h

theorem advance_of_inner {s : State} (h : s.bidx ≠ s.flen - 1) : s.advance = { s with bidx := s.bidx + 1 } := if_neg h

theorem step_of_idle {s : State} (hr : s.coming.rst = false) (hb : s.busy = false) :
    step s = exec (decodePins s.coming) s.takePins := by
  simp [step, edgeAt, hr, hb]

theorem step_of_ready {s : State} (hr : s.coming.rst = false) (hb : s.busy = true) (hx : s.coming.txReady = true) :
    step s = emit s.takePins := by
  simp [step, edgeAt, hr, hb, hx]

theorem step_of_stall {s : State} (hr : s.coming.rst = false) (hb : s.busy = true) (hx : s.coming.txReady = false) :
    step s = .next s.takePins := by
  simp [step, edgeAt, hr, hb, hx]

theorem step_of_reset {s : State} (hr : s.coming.rst = true) : step s = .next s.takePins.resetCore := by
  simp [step, edgeAt, hr]

theorem stepEffect_of_step {s t : State} (h : step s = .next t) : StepEffect s t := by
  rcases step_cases s t h with ⟨hr, rfl⟩ | ⟨hr, hb, hx, he⟩ | ⟨hr, hb, hx, rfl⟩ | ⟨hr, hb, he⟩
  · exact .reset hr
  · obtain ⟨b, hread, ⟨hlast, rfl⟩ | ⟨hlast, rfl⟩⟩ := emit_cases _ _ he
    · exact .lastByte b hr hb hx (by simpa using hread) (by simpa using hlast)
    · simpa using StepEffect.innerByte b hr hb hx (by simpa using hread) (by simpa using hlast)
  · exact .stall hr hb hx
  · cases hv : s.coming.cmdValid with
    | false =>
      rw [decodePins_of_not_cmdValid hv, exec_fenc_takePins] at he
      cases he
      exact .noCommand hr hb hv
    | true =>
      rw [exec_command _ _ (by simpa using hv), State.takePins_params] at he
      rcases accept_cases _ _ _ he with ⟨hbusy, -⟩ | ⟨-, c, hF, rfl⟩ | ⟨-, F, hF, rfl⟩
      · simp [hb] at hbusy
      · exact .rejected c hr hb hF
      · exact .loaded F hr hb hv hF

theorem step_of_stepEffect {s t : State} (h : StepEffect s t) : step s = .next t := by
  cases h with
  | reset hr => exact step_of_reset hr
  | lastByte b hr hb hx hread hlast =>
    rw [step_of_ready hr hb hx, emit_some _ b (by simpa using hread), advance_of_last (by simpa using hlast)]
  | innerByte b hr hb hx hread hlast =>
    rw [step_of_ready hr hb hx, emit_some _ b (by simpa using hread), advance_of_inner (by simpa using hlast)]
    simp
  | stall hr hb hx => exact step_of_stall hr hb hx
  | rejected c hr hb hF =>
    have hc := FrameCommands.isCommand_of_frame_eq_error hF
    rw [step_of_idle hr hb, exec_command _ _ hc, State.takePins_params, hF, accept_error _ c (by simpa using hb)]
  | loaded F hr hb hv hF =>
    rw [step_of_idle hr hb, exec_command _ _ (by simpa using hv), State.takePins_params, hF,
      accept_ok _ F (by simpa using hb)]
  | noCommand hr hb hv => rw [step_of_idle hr hb, decodePins_of_not_cmdValid hv, exec_fenc_takePins]

/-! ## What every step does outside the core -/

theorem StepEffect.pins_eq {s t : State} (h : StepEffect s t) : t.pins = s.coming := by
  cases h <;> simp

theorem StepEffect.params_eq {s t : State} (h : StepEffect s t) : t.params = s.params := by
  cases h <;> simp

end Sys2Proof.ClockEdge
end

section
/-! The invariants of 10_state.md R20 over one clock edge: the frame in flight, the bytes still to come, and the stream as
a concatenation of whole frames. -/

namespace Sys2Proof.StreamInvariant

open Machine Safety Legality ClockEdge

/-! ## The frame in flight -/

/-- A frame in flight looks at `busy`, `flen`, `bidx` and FBUF alone. -/
theorem frameInFlight_congr {s t : State} {F : List Byte} (h : FrameInFlight s F) (hbusy : t.busy = s.busy)
    (hflen : t.flen = s.flen) (hfbuf : t.fbuf = s.fbuf) (hcur : t.bidx.toNat < F.length) : FrameInFlight t F where
  busy := hbusy.trans h.busy
  length := by rw [hflen, h.length]
  bytes := by rw [hfbuf]; exact h.bytes
  cursor := hcur

theorem frameInFlight_takePins {s : State} {F : List Byte} (h : FrameInFlight s F) : FrameInFlight s.takePins F :=
  frameInFlight_congr h (by simp) (by simp) (by simp) (by simpa using h.cursor)

/-- ACCEPT of a frame that has a byte puts it in flight, its first byte next (R111). -/
theorem frameInFlight_loadFrame (s : State) {F : List Byte} (hpos : 0 < F.length) (hle : F.length ≤ fbufDepth) :
    FrameInFlight (s.loadFrame F) F := by
  obtain ⟨hbusy, hbidx, hflen, hbytes, -⟩ := loads_loadFrame s F hle
  exact ⟨hbusy, hflen, hbytes, by simpa [hbidx] using hpos⟩

section InFlight

variable {s : State} {F : List Byte} (h : FrameInFlight s F)
include h

/-- The byte at the cursor stands in FBUF. -/
theorem read_cursor : s.fbuf.read s.bidx.toNat = some (F[s.bidx.toNat]'h.cursor) := by
  rw [h.bytes _ h.cursor, List.getElem?_eq_getElem h.cursor]

/-- The test of R37 on 4-bit vectors is that of the last index of the frame. -/
theorem bidx_eq_last_iff : s.bidx = s.flen - 1 ↔ s.bidx.toNat + 1 = F.length := by
  have hlen := h.length
  have hcur := h.cursor
  have hlt := s.flen.isLt
  rw [← BitVec.toNat_inj, BitVec.toNat_sub]
  simp
  omega

/-- The cursor moves on by one and does not wrap. -/
theorem bidx_succ_toNat (hlast : s.bidx ≠ s.flen - 1) :
    (s.bidx + 1).toNat = s.bidx.toNat + 1 ∧ s.bidx.toNat + 1 < F.length := by
  have hne := mt (bidx_eq_last_iff h).mpr hlast
  have hlen := h.length
  have hcur := h.cursor
  have hlt := s.flen.isLt
  refine ⟨?_, by omega⟩
  rw [BitVec.toNat_add]
  simp
  omega

/-- EMIT of a byte before the last leaves the frame in flight. -/
theorem frameInFlight_innerByte (b : Byte) (hlast : s.bidx ≠ s.flen - 1) :
    FrameInFlight { s.takePins.tx b with bidx := s.bidx + 1 } F := by
  obtain ⟨hsucc, hlt⟩ := bidx_succ_toNat h hlast
  exact frameInFlight_congr h (by simp) (by simp) (by simp) (hsucc ▸ hlt)

end InFlight

/-! ## The frame invariant -/

/-- An idle core with the cursor at 0 and nothing in FBUF satisfies the invariant. -/
theorem frameInv_of_idle {t : State} (hb : t.busy = false) (hi : t.bidx = 0) (hm : t.fbuf = []) : FrameInv t where
  wf := hm ▸ Memory.wf_nil
  idle _ := ⟨hi, hm⟩
  inFlight ht := by rw [hb] at ht; cases ht

/-- A core with the frame of a command in flight satisfies it. -/
theorem frameInv_of_inFlight {t : State} {c : Instr} {F : List Byte} (hwf : t.fbuf.wf = true) (hc : c.isCommand = true)
    (hF : frame t.params.validateEnums c = .ok F) (ht : FrameInFlight t F) : FrameInv t where
  wf := hwf
  idle hb := by rw [ht.busy] at hb; cases hb
  inFlight _ := ⟨c, F, hc, hF, ht⟩

/-- It looks at the frame buffer, its cursor and length, and the parameters alone. -/
theorem frameInv_congr {s t : State} (h : FrameInv s) (hbusy : t.busy = s.busy) (hflen : t.flen = s.flen)
    (hbidx : t.bidx = s.bidx) (hfbuf : t.fbuf = s.fbuf) (hparams : t.params = s.params) : FrameInv t where
  wf := hfbuf ▸ h.wf
  idle hb := by rw [hbidx, hfbuf]; exact h.idle (hbusy ▸ hb)
  inFlight hb := by
    obtain ⟨c, F, hc, hF, hfl⟩ := h.inFlight (hbusy ▸ hb)
    exact ⟨c, F, hc, by rwa [hparams], frameInFlight_congr hfl hbusy hflen hfbuf (hbidx ▸ hfl.cursor)⟩

/-- A command has a frame of at least three bytes (R52). -/
theorem frame_length_pos {validate : Bool} {c : Instr} {F : List Byte} (hc : c.isCommand = true)
    (hF : frame validate c = .ok F) : 0 < F.length := by
  have hlen := Encoding.frame_length hF
  rcases Encoding.formatLength_of_isCommand hc with h | h | h | h <;> omega

theorem frameInv_of_stepEffect {s t : State} (hs : FrameInv s) (h : StepEffect s t) : FrameInv t := by
  cases h with
  | reset _ | lastByte _ _ _ _ _ _ => exact frameInv_of_idle rfl rfl rfl
  | innerByte b _ hb _ _ hlast =>
    obtain ⟨c, F, hc, hF, hfl⟩ := hs.inFlight hb
    exact frameInv_of_inFlight (by simpa using hs.wf) hc (by simpa using hF) (frameInFlight_innerByte hfl b hlast)
  | stall _ _ _ | noCommand _ _ _ | rejected _ _ _ _ =>
    exact frameInv_congr hs (by simp) (by simp) (by simp) (by simp) (by simp)
  | loaded F _ _ hv hF =>
    have hc : (decodePins s.coming).isCommand = true := by simpa using hv
    have hle := frame_length_le _ _ F hF
    refine frameInv_of_inFlight ?_ hc (by simpa using hF) (frameInFlight_loadFrame _ (frame_length_pos hc hF) hle)
    exact Memory.wf_writeFrom F _ 0 (by simpa using hle) (by simpa using hs.wf)

/-- Settles O44: by the cases of the step. -/
theorem stepKeepsFrameInvariant : Obligations.StepKeepsFrameInvariant :=
  fun _ _ hs h => frameInv_of_stepEffect hs (stepEffect_of_step h)

/-! ## The bytes still to come -/

theorem filterMap_getElem?_range' {F : List Byte} (n b : Nat) (hn : b + n = F.length) :
    (List.range' b n).filterMap (fun k => F[k]?) = F.drop b := by
  induction n generalizing b with
  | zero => simpa using hn.ge
  | succ n ih =>
    have hb : b < F.length := by omega
    rw [List.range'_succ, List.drop_eq_getElem_cons hb, List.filterMap_cons_some (List.getElem?_eq_getElem hb),
      ih (b + 1) (by omega)]

/-- Of a frame in flight the bytes from the cursor on are outstanding. -/
theorem outstanding_of_inFlight {s : State} {F : List Byte} (h : FrameInFlight s F) :
    outstanding s = F.drop s.bidx.toNat := by
  have hcur := h.cursor
  have hsum : s.bidx.toNat + (F.length - s.bidx.toNat) = F.length := by omega
  rw [outstanding, if_pos h.busy, h.length, ← filterMap_getElem?_range' _ _ hsum]
  refine List.filterMap_congr fun k hk => h.bytes k ?_
  rw [List.mem_range'_1] at hk
  omega

theorem outstanding_of_idle {s : State} (h : s.busy = false) : outstanding s = [] := by
  simp [outstanding, h]

/-- `outstanding` looks at `busy`, `flen`, `bidx` and FBUF alone. -/
theorem outstanding_congr {s t : State} (hbusy : t.busy = s.busy) (hflen : t.flen = s.flen) (hbidx : t.bidx = s.bidx)
    (hfbuf : t.fbuf = s.fbuf) : outstanding t = outstanding s := by
  rw [outstanding, outstanding, hbusy, hflen, hbidx, hfbuf]

/-! ## The commands accepted -/

theorem frameBytes_of_ok {validate : Bool} {i : Instr} {F : List Byte} (h : frame validate i = .ok F) :
    frameBytes validate i = F := by
  simp [frameBytes, h]

/-- Of an idle core without a reset, the accepted command is the one on the ports, if it is legal. -/
theorem acceptedAt_of_idle {s : State} (hr : s.coming.rst = false) (hb : s.busy = false) :
    acceptedAt s = if s.coming.cmdValid && (decodePins s.coming).legal s.params then [decodePins s.coming] else [] := by
  simp [acceptedAt, edgeAt, hr, hb]

theorem acceptedAt_of_busy {s : State} (hb : s.busy = true) : acceptedAt s = [] := by
  cases hr : s.coming.rst <;> cases hx : s.coming.txReady <;> simp [acceptedAt, edgeAt, hr, hb, hx]

theorem mem_acceptedAt {s : State} {c : Instr} (h : c ∈ acceptedAt s) : c.isCommand = true ∧ c.legal s.params = true := by
  unfold acceptedAt at h
  split at h
  · split at h
    · next hc =>
      obtain rfl := List.mem_singleton.mp h
      simpa using hc
    · cases h
  all_goals cases h

/-! ## The stream (R20 item 4, R38, R39) -/

/-- An edge without a reset adds to the stream and the bytes still to come exactly the frame of the command it accepts. -/
theorem stream_of_stepEffect {s t : State} (hs : FrameInv s) (hr : s.coming.rst = false) (h : StepEffect s t) :
    t.txLog ++ outstanding t =
      s.txLog ++ outstanding s ++ (acceptedAt s).flatMap (frameBytes s.params.validateEnums) := by
  cases h with
  | reset hr' => rw [hr] at hr'; cases hr'
  | lastByte b _ hb _ hread hlast =>
    obtain ⟨c, F, hc, hF, hfl⟩ := hs.inFlight hb
    have hb' : F[s.bidx.toNat]'hfl.cursor = b := Option.some.inj ((read_cursor hfl).symm.trans hread)
    have hend := (bidx_eq_last_iff hfl).mp hlast
    rw [acceptedAt_of_busy hb, outstanding_of_inFlight hfl, outstanding_of_idle rfl, List.drop_eq_getElem_cons hfl.cursor,
      hb', hend]
    simp
  | innerByte b _ hb _ hread hlast =>
    obtain ⟨c, F, hc, hF, hfl⟩ := hs.inFlight hb
    have hb' : F[s.bidx.toNat]'hfl.cursor = b := Option.some.inj ((read_cursor hfl).symm.trans hread)
    obtain ⟨hsucc, -⟩ := bidx_succ_toNat hfl hlast
    rw [acceptedAt_of_busy hb, outstanding_of_inFlight hfl, List.drop_eq_getElem_cons hfl.cursor, hb',
      outstanding_of_inFlight (frameInFlight_innerByte hfl b hlast), hsucc]
    simp
  | stall _ hb _ =>
    rw [acceptedAt_of_busy hb, outstanding_congr (s := s) (by simp) (by simp) (by simp) (by simp)]
    simp
  | rejected c _ hb hF =>
    rw [acceptedAt_of_idle hr hb, not_legal_of_frame_eq_error hF,
      outstanding_congr (s := s) (by simp) (by simp) (by simp) (by simp)]
    simp
  | loaded F _ hb hv hF =>
    have hc : (decodePins s.coming).isCommand = true := by simpa using hv
    have hfl := frameInFlight_loadFrame s.takePins (frame_length_pos hc hF) (frame_length_le _ _ F hF)
    rw [acceptedAt_of_idle hr hb, hv, (legal_iff_frame_eq_ok _ _).mpr ⟨F, hF⟩, outstanding_of_idle hb,
      outstanding_of_inFlight hfl]
    simp [frameBytes_of_ok hF]
  | noCommand _ hb hv =>
    rw [acceptedAt_of_idle hr hb, hv, outstanding_congr (s := s) (by simp) (by simp) (by simp) (by simp)]
    simp

/-- A fresh observation of an idle core is the empty concatenation. -/
theorem streamInv_of_fresh {t : State} (hb : t.busy = false) (hlog : t.txLog = []) : StreamInv t :=
  ⟨[], by simp, by simp [hlog, outstanding_of_idle hb]⟩

theorem streamInv_of_stepEffect {s t : State} (hs : FrameInv s) (hstream : StreamInv s) (h : StepEffect s t) :
    StreamInv t := by
  cases hr : s.coming.rst with
  | true =>
    cases h with
    | reset _ => exact streamInv_of_fresh rfl rfl
    | _ => simp_all
  | false =>
    obtain ⟨cs, hcs, heq⟩ := hstream
    refine ⟨cs ++ acceptedAt s, fun c hc => ?_, ?_⟩
    · rw [h.params_eq]
      exact (List.mem_append.mp hc).elim (hcs c) mem_acceptedAt
    · rw [stream_of_stepEffect hs hr h, heq, h.params_eq, List.flatMap_append]

/-- Settles O45: what an edge adds is the frame of a legal command, and a reset starts afresh. -/
theorem stepKeepsStreamOfWholeFrames : Obligations.StepKeepsStreamOfWholeFrames := fun _ _ hs hstream h =>
  ⟨frameInv_of_stepEffect hs (stepEffect_of_step h), streamInv_of_stepEffect hs hstream (stepEffect_of_step h)⟩

end Sys2Proof.StreamInvariant
end

section
/-! What a single clock edge changes and what it keeps: the instruction an idle core runs, EMIT and the stall of a busy
one, RESET, the error flags, and which inputs have any influence. -/

namespace Sys2Proof.ClockEdge

open Machine Safety Legality

/-! ## The edges of R135 -/

/-- Settles O38: the levels that offer an instruction decode to it. -/
theorem stepRunsDecodedInstruction : Obligations.StepRunsDecodedInstruction := by
  refine ⟨fun s hr hb => step_of_idle hr hb, fun s i p ps hs hr hb => ?_⟩
  have hcoming := State.coming_cons s _ _ hs
  rw [step_of_idle (by rw [hcoming, encodePins_rst, hr]) hb, hcoming, FrameCommands.decodePins_encodePins,
    State.takePins_cons s _ _ hs]

/-- Settles O39: EMIT of the last byte, or of one before it. -/
theorem emitHandsOverOneByte : Obligations.EmitHandsOverOneByte := by
  intro s b hr hb hx hread
  by_cases hlast : s.bidx = s.flen - 1
  · refine ⟨_, step_of_stepEffect (.lastByte b hr hb hx hread hlast), ?_⟩
    exact ⟨by simp, by simp, by simp, by simp, by simp, by simp, fun _ => ⟨rfl, rfl⟩, fun h => absurd hlast h⟩
  · refine ⟨_, step_of_stepEffect (.innerByte b hr hb hx hread hlast), ?_⟩
    exact ⟨by simp, by simp, by simp, by simp, by simp, by simp, fun h => absurd h hlast,
      fun _ => ⟨by simpa using hb, rfl, by simp, by simp⟩⟩

/-- Settles O40: the edge takes the input levels and nothing else. -/
theorem stallHoldsTheByte : Obligations.StallHoldsTheByte := by
  intro s hr hb hx
  refine ⟨s.takePins, step_of_stall hr hb hx, ?_⟩
  simp [SameCore, State.txData, State.txValid, State.cmdReady, hb]

/-- Settles O41: RESET is before every other edge. -/
theorem resetEdgeClearsTheCore : Obligations.ResetEdgeClearsTheCore := fun s hr =>
  ⟨s.takePins.resetCore, step_of_reset hr, rfl, rfl, rfl, rfl, rfl, rfl, by simp, rfl, rfl, rfl⟩

/-- Settles O42: by evaluating the state after reset. -/
theorem resetStateValues : Obligations.ResetStateValues :=
  ⟨rfl, rfl, rfl, rfl, rfl, rfl, rfl, rfl, fun _ => rfl, rfl⟩

/-- Settles O43: after reset the core is idle, the observation fresh and no error recorded. -/
theorem invariantsHoldAtReset : Obligations.InvariantsHoldAtReset :=
  ⟨StreamInvariant.frameInv_of_idle rfl rfl rfl, StreamInvariant.streamInv_of_fresh rfl rfl, fun _ => rfl,
    fun he => by cases he⟩

/-- Settles O50: the ports hold the edge's levels, and `fenc_out` is a function of them alone. -/
theorem fencOutFollowsFencIn : Obligations.FencOutFollowsFencIn := fun s t h => by
  rw [State.fencOut, (stepEffect_of_step h).pins_eq]

/-- Settles O55: the step of an idle core runs what is on the ports, and the Host has kept its offer there. -/
theorem keptOfferIsRunWhenIdle : Obligations.KeptOfferIsRunWhenIdle := by
  intro s t hkeeps hb hv h hidle hr
  obtain ⟨-, hsame⟩ := hkeeps hb hv t h
  exact ⟨by rw [step_of_idle hr hidle, hsame], by simpa using hv⟩

/-! ## No refusal, no fault -/

theorem emit_ne_refused (s : State) (r : Refusal) : emit s ≠ .refused r := by
  unfold emit
  split
  · simp
  · split <;> simp

theorem step_ne_refused (s : State) (r : Refusal) : step s ≠ .refused r := by
  unfold step
  split
  · simp
  · exact emit_ne_refused _ r
  · simp
  · next i _ =>
    obtain ⟨t, ht⟩ := exists_exec_eq_next i s.takePins
    simp [ht]

/-- Under the frame invariant the byte EMIT asks for stands in FBUF. -/
theorem exists_step_eq_next {s : State} (hs : FrameInv s) : ∃ t, step s = .next t := by
  cases hr : s.coming.rst with
  | true => exact ⟨_, step_of_reset hr⟩
  | false =>
    cases hb : s.busy with
    | false =>
      rw [step_of_idle hr hb]
      exact exists_exec_eq_next _ _
    | true =>
      cases hx : s.coming.txReady with
      | false => exact ⟨_, step_of_stall hr hb hx⟩
      | true =>
        obtain ⟨_, _, _, _, hfl⟩ := hs.inFlight hb
        rw [step_of_ready hr hb hx]
        exact ⟨_, emit_some _ _ (by simpa using StreamInvariant.read_cursor hfl)⟩

/-- Settles O49: no operation refuses, and the invariant rules EMIT's faults out. -/
theorem stepNeverStops : Obligations.StepNeverStops := ⟨step_ne_refused, fun _ => exists_step_eq_next⟩

/-! ## The error flags and FBUF -/

/-- The error action records a cause of R130 where there was none, and only `asel = 7` without `VALIDATE_ENUMS`. -/
theorem errInv_raiseInvalid {s : State} {i : Instr} {c : ErrCause} (hs : ErrInv s)
    (hF : frame s.params.validateEnums i = .error c) : ErrInv (s.raiseInvalid c) := by
  refine ⟨fun he => (by cases he), fun _ => ?_⟩
  cases he : s.err with
  | true => simpa [causeAfter, he] using hs.2 he
  | false =>
    rcases frame_eq_error_cases hF with ⟨-, rfl⟩ | ⟨hv, rfl | rfl⟩
    · exact .inl (by simp [causeAfter, he, ErrCause.code])
    · exact .inr ⟨hv, .inl (by simp [causeAfter, he, ErrCause.code])⟩
    · exact .inr ⟨hv, .inr (by simp [causeAfter, he, ErrCause.code])⟩

/-- The legality of the flags looks at them and at the parameters alone. -/
theorem errInv_congr {s t : State} (hs : ErrInv s) (herr : t.err = s.err) (hcause : t.errCause = s.errCause)
    (hparams : t.params = s.params) : ErrInv t := by
  rwa [ErrInv, herr, hcause, hparams]

/-- Settles O46: only the error action writes a cause, and RESET clears both flags. -/
theorem stepKeepsErrorFlagsLegal : Obligations.StepKeepsErrorFlagsLegal := by
  intro s t hs h
  cases stepEffect_of_step h with
  | reset _ => exact ⟨fun _ => rfl, fun he => by cases he⟩
  | rejected c _ _ hF =>
    have hs' : ErrInv s.takePins := errInv_congr hs (by simp) (by simp) (by simp)
    exact errInv_raiseInvalid hs' (by simpa using hF)
  | lastByte _ _ _ _ _ _ | innerByte _ _ _ _ _ _ | stall _ _ _ | loaded _ _ _ _ _ | noCommand _ _ _ =>
    exact errInv_congr hs (by simp) (by simp) (by simp)

/-- Settles O47: FBUF is written by ACCEPT alone, at most fourteen bytes from index 0, and emptied by the discard. -/
theorem stepKeepsMemoryForm : Obligations.StepKeepsMemoryForm := by
  intro s t hs h
  cases stepEffect_of_step h with
  | reset _ | lastByte _ _ _ _ _ _ => exact Memory.wf_nil
  | loaded F _ _ _ hF =>
    have hle := frame_length_le _ _ F hF
    exact Memory.wf_writeFrom F _ 0 (by simpa using hle) (by simpa using hs)
  | innerByte _ _ _ _ _ _ | stall _ _ _ | rejected _ _ _ _ | noCommand _ _ _ => simpa using hs

/-- Settles O48: but for RESET only the error action writes the flags, and it keeps the first cause. -/
theorem errorClearedOnlyByReset : Obligations.ErrorClearedOnlyByReset := by
  intro s t h hr he
  cases stepEffect_of_step h with
  | reset hr' => rw [hr] at hr'; cases hr'
  | rejected _ _ _ _ => simp [causeAfter, he]
  | lastByte _ _ _ _ _ _ | innerByte _ _ _ _ _ _ | stall _ _ _ | loaded _ _ _ _ _ | noCommand _ _ _ => simp [he]

/-! ## What has influence -/

theorem bitVec3_cases (c : BitVec 3) : c = 0 ∨ c = 1 ∨ c = 2 ∨ c = 3 ∨ c = 4 ∨ c = 5 ∨ c = 6 ∨ c = 7 := by
  revert c
  decide

/-- The command on the ports depends on its code and the operands it reads alone (R112). -/
theorem decodePins_eq_of_agreeOnRead {p q : Pins} (hp : p.cmdValid = true) (hq : q.cmdValid = true)
    (h : AgreeOnRead p q) : decodePins p = decodePins q := by
  obtain ⟨hcmd, hasel, hrot, haval⟩ := h
  rcases bitVec3_cases p.cmd with hc | hc | hc | hc | hc | hc | hc | hc
  all_goals simp [decodePins, hp, hq, ← hcmd, hc]
  · exact hasel hc
  · exact hrot (.inl hc)
  · exact hrot (.inr (.inl hc))
  · exact hrot (.inr (.inr hc))
  · exact haval hc

/-- Settles O56: in each case the other levels lead to the same case, with the same byte, cause or frame. -/
theorem onlyOperandsReadHaveInfluence : Obligations.OnlyOperandsReadHaveInfluence := by
  intro s p q ps t hrst hready hidle h
  have hcommand (hb : s.busy = false) (hv : p.cmdValid = true) :
      q.cmdValid = true ∧ decodePins q = decodePins p := by
    obtain ⟨hvalid, hagree⟩ := hidle hb
    have hv' := hvalid ▸ hv
    exact ⟨hv', (decodePins_eq_of_agreeOnRead hv hv' (hagree hv)).symm⟩
  cases stepEffect_of_step h with
  | reset hr => exact ⟨_, step_of_stepEffect (.reset (hrst ▸ hr)), rfl⟩
  | lastByte b hr hb hx hread hlast =>
    exact ⟨_, step_of_stepEffect (.lastByte b (hrst ▸ hr) hb (hready ▸ hx) hread hlast), rfl⟩
  | innerByte b hr hb hx hread hlast =>
    exact ⟨_, step_of_stepEffect (.innerByte b (hrst ▸ hr) hb (hready ▸ hx) hread hlast), rfl⟩
  | stall hr hb hx => exact ⟨_, step_of_stepEffect (.stall (hrst ▸ hr) hb (hready ▸ hx)), rfl⟩
  | rejected c hr hb hF =>
    have hv : p.cmdValid = true :=
      (decodePins_isCommand p).symm.trans (FrameCommands.isCommand_of_frame_eq_error hF)
    obtain ⟨-, hdec⟩ := hcommand hb hv
    exact ⟨_, step_of_stepEffect (.rejected c (hrst ▸ hr) hb (hdec ▸ hF)), rfl⟩
  | loaded F hr hb hv hF =>
    obtain ⟨hv', hdec⟩ := hcommand hb hv
    exact ⟨_, step_of_stepEffect (.loaded F (hrst ▸ hr) hb hv' (hdec ▸ hF)), rfl⟩
  | noCommand hr hb hv => exact ⟨_, step_of_stepEffect (.noCommand (hrst ▸ hr) hb ((hidle hb).1 ▸ hv)), rfl⟩

/-- The taking of the input levels does not look at the error flags. -/
theorem takePins_set_err (s : State) (e : Bool) (c : BitVec 3) :
    State.takePins { s with err := e, errCause := c } = { s.takePins with err := e, errCause := c } := by
  simp only [State.takePins]
  split <;> rfl

/-- Settles O57: the case of the edge, and its byte, cause or frame, do not depend on the error flags. -/
theorem recordedErrorHasNoInfluence : Obligations.RecordedErrorHasNoInfluence := by
  intro s t e c h
  have hpins := takePins_set_err s e c
  cases stepEffect_of_step h with
  | reset hr => exact ⟨_, step_of_stepEffect (.reset hr), by rw [hpins]; rfl⟩
  | lastByte b hr hb hx hread hlast =>
    exact ⟨_, step_of_stepEffect (.lastByte b hr hb hx hread hlast), by rw [hpins]; rfl⟩
  | innerByte b hr hb hx hread hlast =>
    exact ⟨_, step_of_stepEffect (.innerByte b hr hb hx hread hlast), by rw [hpins]; rfl⟩
  | stall hr hb hx => exact ⟨_, step_of_stepEffect (.stall hr hb hx), by rw [hpins]⟩
  | rejected cause hr hb hF => exact ⟨_, step_of_stepEffect (.rejected cause hr hb hF), by rw [hpins]; rfl⟩
  | loaded F hr hb hv hF => exact ⟨_, step_of_stepEffect (.loaded F hr hb hv hF), by rw [hpins]; rfl⟩
  | noCommand hr hb hv => exact ⟨_, step_of_stepEffect (.noCommand hr hb hv), by rw [hpins]⟩

end Sys2Proof.ClockEdge
end

section
/-! Runs of clock edges (20_memory.md R37 to R42, 70_reset_and_hazards.md R151, R154): the stream along a run without a
reset, and the delivery of the frame in flight under any pattern of readiness. -/

namespace Sys2Proof.EdgeRuns

open Machine Safety ClockEdge StreamInvariant

/-! ## Runs and their first edge -/

theorem runEdges_succ {s t : State} (h : step s = .next t) (n : Nat) : runEdges (n + 1) s = runEdges n t := by
  simp [runEdges, h]

theorem exists_step_of_runEdges_succ {n : Nat} {s t : State} (h : runEdges (n + 1) s = .next t) :
    ∃ u, step s = .next u ∧ runEdges n u = .next t := by
  rw [runEdges] at h
  split at h
  · next u hu => exact ⟨u, hu, h⟩
  · cases h
  · cases h

theorem runEdges_add {n : Nat} {s t : State} (h : runEdges n s = .next t) (m : Nat) :
    runEdges (n + m) s = runEdges m t := by
  induction n generalizing s with
  | zero =>
    cases h
    rw [Nat.zero_add]
  | succ n ih =>
    obtain ⟨u, hu, hrun⟩ := exists_step_of_runEdges_succ h
    rw [Nat.succ_add, runEdges_succ hu, ih hrun]

theorem accepted_succ {s t : State} (h : step s = .next t) (n : Nat) :
    accepted (n + 1) s = acceptedAt s ++ accepted n t := by
  simp [accepted, h]

/-! ## The stream along a run (R38, R39) -/

/-- Settles O51: by induction on the number of edges; each adds the frame of the command it accepts. -/
theorem streamIsFramesInAcceptanceOrder : Obligations.StreamIsFramesInAcceptanceOrder := by
  intro n
  induction n with
  | zero =>
    intro s t _ _ h
    cases h
    simp [accepted]
  | succ n ih =>
    intro s t hs ⟨hr, hrest⟩ h
    obtain ⟨u, hu, hrun⟩ := exists_step_of_runEdges_succ h
    have heffect := stepEffect_of_step hu
    rw [ih u t (frameInv_of_stepEffect hs heffect) (hrest u hu) hrun, stream_of_stepEffect hs hr heffect,
      heffect.params_eq, accepted_succ hu, List.flatMap_append, List.append_assoc]

/-! ## Delivery of the frame in flight (R37, R42) -/

/-- `t` is `s` after the next `n` bytes of the frame `F` have been handed over, and nothing else. -/
structure HandsOver (F : List Byte) (n : Nat) (s t : State) : Prop where
  err : t.err = s.err
  errCause : t.errCause = s.errCause
  params : t.params = s.params
  stream : t.txLog = s.txLog ++ (F.drop s.bidx.toNat).take n
  inFlight : n < F.length - s.bidx.toNat → FrameInFlight t F ∧ t.bidx.toNat = s.bidx.toNat + n
  idle : n = F.length - s.bidx.toNat → t.busy = false ∧ t.bidx = 0

/-- Bytes are handed over one after the other. -/
theorem HandsOver.trans {F : List Byte} {m n : Nat} {s t u : State} (hst : HandsOver F m s t)
    (hm : m < F.length - s.bidx.toNat) (htu : HandsOver F n t u) : HandsOver F (m + n) s u := by
  obtain ⟨-, hcur⟩ := hst.inFlight hm
  refine ⟨htu.err.trans hst.err, htu.errCause.trans hst.errCause, htu.params.trans hst.params, ?_, fun h => ?_,
    fun h => htu.idle (by omega)⟩
  · rw [htu.stream, hst.stream, hcur, List.take_add, List.drop_drop, List.append_assoc]
  · obtain ⟨hfl, hcur'⟩ := htu.inFlight (by omega)
    exact ⟨hfl, by omega⟩

theorem readyEdges_cons (p : Pins) (ps : List Pins) : readyEdges (p :: ps) = readyEdges [p] + readyEdges ps := by
  cases h : p.txReady <;> simp [readyEdges, h]; omega

/-- An edge without a reset hands over one byte if the transport is ready, else none. -/
theorem handsOver_edge {s : State} {F : List Byte} (hfl : FrameInFlight s F) (hr : s.coming.rst = false) :
    ∃ t, step s = .next t ∧ t.script = s.script.tail ∧ HandsOver F (readyEdges [s.coming]) s t := by
  have hcur := hfl.cursor
  cases hx : s.coming.txReady with
  | false =>
    have hn : readyEdges [s.coming] = 0 := by simp [readyEdges, hx]
    refine ⟨s.takePins, step_of_stall hr hfl.busy hx, by simp, ?_⟩
    exact hn ▸ ⟨by simp, by simp, by simp, by simp, fun _ => ⟨frameInFlight_takePins hfl, by simp⟩, fun h => by omega⟩
  | true =>
    have hn : readyEdges [s.coming] = 1 := by simp [readyEdges, hx]
    have hread := read_cursor hfl
    have htake : (F.drop s.bidx.toNat).take 1 = [F[s.bidx.toNat]] := by
      rw [List.drop_eq_getElem_cons hcur, List.take_succ_cons, List.take_zero]
    by_cases hlast : s.bidx = s.flen - 1
    · have hend := (bidx_eq_last_iff hfl).mp hlast
      refine ⟨_, step_of_stepEffect (.lastByte _ hr hfl.busy hx hread hlast), by simp, ?_⟩
      exact hn ▸ ⟨by simp, by simp, by simp, by simp [htake], fun h => by omega, fun _ => ⟨rfl, rfl⟩⟩
    · obtain ⟨hsucc, hlt⟩ := bidx_succ_toNat hfl hlast
      refine ⟨_, step_of_stepEffect (.innerByte _ hr hfl.busy hx hread hlast), by simp, ?_⟩
      exact hn ▸ ⟨by simp, by simp, by simp, by simp [htake], fun _ => ⟨frameInFlight_innerByte hfl _ hlast, hsucc⟩,
        fun h => by omega⟩

/-- Ready edges hand over the next bytes of the frame in flight, whatever edges stand between them; only the last edge of
the run may be that of the last byte. -/
theorem runEdges_handsOver {F : List Byte} {rest : List Pins} (ps : List Pins) {s : State} (hfl : FrameInFlight s F)
    (hscript : s.script = ps ++ rest) (hrst : ∀ p ∈ ps, p.rst = false)
    (hready : readyEdges ps.dropLast < F.length - s.bidx.toNat) :
    ∃ t, runEdges ps.length s = .next t ∧ t.script = rest ∧ HandsOver F (readyEdges ps) s t := by
  induction ps generalizing s with
  | nil =>
    have hcur := hfl.cursor
    exact ⟨s, rfl, hscript, rfl, rfl, rfl, by simp [readyEdges], fun _ => ⟨hfl, rfl⟩, fun h => by
      simp [readyEdges] at h; omega⟩
  | cons p ps ih =>
    have hcoming : s.coming = p := State.coming_cons s _ _ hscript
    obtain ⟨t, ht, htail, hone⟩ := handsOver_edge hfl (hcoming ▸ hrst p List.mem_cons_self)
    rw [hcoming] at hone
    have htscript : t.script = ps ++ rest := by rw [htail, hscript]; rfl
    cases ps with
    | nil => exact ⟨t, by rw [List.length_singleton, runEdges_succ ht]; rfl, htscript, hone⟩
    | cons q qs =>
      rw [List.dropLast_cons_cons, readyEdges_cons] at hready
      have hfirst : readyEdges [p] < F.length - s.bidx.toNat := by omega
      obtain ⟨hfl', hcur⟩ := hone.inFlight hfirst
      obtain ⟨u, hu, huscript, hrest⟩ :=
        ih hfl' htscript (fun r hr => hrst r (List.mem_cons_of_mem p hr)) (by omega)
      refine ⟨u, ?_, huscript, ?_⟩
      · rw [List.length_cons, runEdges_succ ht, hu]
      · exact readyEdges_cons p _ ▸ hone.trans hfirst hrest

/-- Settles O52: by induction on the script, edge by edge. -/
theorem frameDeliveredUnderAnyReadiness : Obligations.FrameDeliveredUnderAnyReadiness := by
  intro s F ps rest hfl hscript hrst hready
  obtain ⟨t, ht, htscript, h⟩ := runEdges_handsOver ps hfl hscript hrst hready
  exact ⟨t, ht, htscript, h.err, h.errCause, h.params, h.stream, h.inFlight, h.idle⟩

/-- Settles O53: after the last byte the core is idle, and the next edge is the ACCEPT of the offer. -/
theorem offeredCommandIsAcceptedAfterTheFrame : Obligations.OfferedCommandIsAcceptedAfterTheFrame := by
  intro s F G ps rest p i hfl hscript hrst hp hready hall hc hG
  obtain ⟨t, ht, htscript, h⟩ := runEdges_handsOver ps hfl hscript hrst hready
  obtain ⟨hidle, -⟩ := h.idle hall
  have hcoming : t.coming = encodePins i p := State.coming_cons t _ _ htscript
  have hdec : decodePins t.coming = i := by rw [hcoming, FrameCommands.decodePins_encodePins]
  have hstep : step t = .next (t.takePins.loadFrame G) := by
    refine step_of_stepEffect (.loaded G ?_ hidle ?_ ?_)
    · rw [hcoming, encodePins_rst, hp]
    · rw [← decodePins_isCommand, hdec, hc]
    · rw [hdec, h.params, hG]
  refine ⟨t.takePins.loadFrame G, ?_, frameInFlight_loadFrame _ (frame_length_pos hc hG) (frame_length_le _ i G hG), rfl, ?_⟩
  · rw [runEdges_add ht, runEdges_succ hstep]
    rfl
  · rw [State.loadFrame_txLog, State.takePins_txLog, h.stream, hall, List.take_of_length_le (by simp)]

/-! ## A reset by a Host that does its duty (R151) -/

/-- Settles O54: the core is idle at such an edge, so nothing is outstanding and the stream alone is whole frames. -/
theorem dutifulResetLosesNoByte : Obligations.DutifulResetLosesNoByte := by
  intro s _ ⟨cs, hcs, hstream⟩ hduty hr
  have hidle : s.busy = false := by
    by_contra hb
    rw [hduty (by simpa using hb)] at hr
    cases hr
  rw [outstanding_of_idle hidle, List.append_nil] at hstream
  exact ⟨⟨cs, hcs, hstream⟩, _, step_of_reset hr, rfl, rfl, rfl, rfl, fun _ => rfl, rfl, rfl, by simp⟩

end Sys2Proof.EdgeRuns
end

section
/-! The exact arithmetic of the float encoder (40_float_encoder.md R75, R76, R80) on natural numbers: the leading 1 of a
magnitude, the 24 bits from it down, and the magnitude with the bits below them cleared. -/

namespace Sys2Proof.FloatEncoder

/-- The 24 bits from the leading 1 of a magnitude down, zeros below it where it has fewer (R76); nothing is lost before the
implicit leading 1 is taken off. -/
def significand (m : Nat) : Nat :=
  if Nat.log 2 m < 23 then m * 2 ^ (23 - Nat.log 2 m) else m / 2 ^ (Nat.log 2 m - 23)

/-- The weight of the lowest bit kept, `2^(msb-23)`, and 1 where nothing is discarded (R80). -/
def lowestKept (m : Nat) : Nat := 2 ^ (Nat.log 2 m - 23)

/-- The magnitude with its discarded bits cleared (R80). -/
def truncated (m : Nat) : Nat := m / lowestKept m * lowestKept m

theorem lowestKept_pos (m : Nat) : 0 < lowestKept m := Nat.two_pow_pos _

theorem lowestKept_of_log_le {m : Nat} (h : Nat.log 2 m ≤ 23) : lowestKept m = 1 := by
  rw [lowestKept, Nat.sub_eq_zero_of_le h, pow_zero]

theorem log_le_of_lt_two_pow {m k : Nat} (h : m < 2 ^ (k + 1)) : Nat.log 2 m ≤ k := by
  rcases Nat.eq_zero_or_pos m with rfl | hpos
  · simp
  · exact Nat.lt_succ_iff.mp (Nat.log_lt_of_lt_pow hpos.ne' h)

theorem significand_of_log_lt {m : Nat} (h : Nat.log 2 m < 23) : significand m = m * 2 ^ (23 - Nat.log 2 m) := if_pos h

theorem significand_of_le_log {m : Nat} (h : 23 ≤ Nat.log 2 m) : significand m = m / lowestKept m :=
  if_neg (Nat.not_lt.mpr h)

theorem lowestKept_mul_of_le_log {m : Nat} (h : 23 ≤ Nat.log 2 m) : lowestKept m * 2 ^ 23 = 2 ^ Nat.log 2 m := by
  rw [lowestKept, ← pow_add, Nat.sub_add_cancel h]

/-- The leading 1 stands at bit 23 of the significand. -/
theorem significand_bounds {m : Nat} (hm : m ≠ 0) : 2 ^ 23 ≤ significand m ∧ significand m < 2 ^ 24 := by
  have hlo := Nat.pow_log_le_self 2 hm
  have hhi := Nat.lt_pow_succ_log_self Nat.one_lt_two m
  rw [Nat.succ_eq_add_one, pow_succ] at hhi
  rcases Nat.lt_or_ge (Nat.log 2 m) 23 with hk | hk
  · have hpos := Nat.two_pow_pos (23 - Nat.log 2 m)
    have hpow : 2 ^ Nat.log 2 m * 2 ^ (23 - Nat.log 2 m) = 2 ^ 23 := by rw [← pow_add, Nat.add_sub_cancel' hk.le]
    rw [significand_of_log_lt hk]
    constructor <;> nlinarith
  · rw [significand_of_le_log hk, Nat.le_div_iff_mul_le (lowestKept_pos m), Nat.div_lt_iff_lt_mul (lowestKept_pos m)]
    have hpow := lowestKept_mul_of_le_log hk
    omega

theorem truncated_of_log_le {m : Nat} (h : Nat.log 2 m ≤ 23) : truncated m = m := by
  simp [truncated, lowestKept_of_log_le h]

/-- The significand at the weight of its leading 1 is the truncated magnitude (R80). -/
theorem significand_mul_two_pow (m : Nat) : significand m * 2 ^ Nat.log 2 m = truncated m * 2 ^ 23 := by
  rcases Nat.lt_or_ge (Nat.log 2 m) 23 with hk | hk
  · rw [significand_of_log_lt hk, truncated_of_log_le hk.le, mul_assoc, ← pow_add, Nat.sub_add_cancel hk.le]
  · rw [significand_of_le_log hk, truncated, mul_assoc, lowestKept_mul_of_le_log hk]

/-! ## The truncation error (R80) -/

theorem lowestKept_dvd_two_pow_log (m : Nat) : lowestKept m ∣ 2 ^ Nat.log 2 m := pow_dvd_pow 2 (Nat.sub_le _ _)

/-- A power of two is one bit, which is kept. -/
theorem mod_lowestKept_two_pow (k : Nat) : 2 ^ k % lowestKept (2 ^ k) = 0 := by
  have h := lowestKept_dvd_two_pow_log (2 ^ k)
  rw [Nat.log_pow Nat.one_lt_two] at h
  exact Nat.mod_eq_zero_of_dvd h

theorem truncated_add_mod (m : Nat) : truncated m + m % lowestKept m = m := Nat.div_add_mod' m (lowestKept m)

theorem truncated_le (m : Nat) : truncated m ≤ m := Nat.div_mul_le_self m (lowestKept m)

/-- At most the seven lowest bits are lost: of the magnitudes of 32-bit inputs only 2^31 has its leading 1 at bit 31, and it
has no other 1 to lose. -/
theorem mod_lowestKept_le {m : Nat} (hm : m ≤ 2 ^ 31) : m % lowestKept m ≤ 127 := by
  rcases Nat.lt_or_ge m (2 ^ 31) with hlt | hge
  · have hlog : Nat.log 2 m ≤ 30 := log_le_of_lt_two_pow hlt
    have hkept : lowestKept m ≤ 2 ^ 7 := Nat.pow_le_pow_right Nat.two_pos (by omega)
    have hmod := Nat.mod_lt m (lowestKept_pos m)
    omega
  · obtain rfl : m = 2 ^ 31 := Nat.le_antisymm hm hge
    rw [mod_lowestKept_two_pow]
    decide

/-! ## Truncating twice -/

/-- Truncation keeps the leading 1. -/
theorem two_pow_log_le_truncated {m : Nat} (hm : m ≠ 0) : 2 ^ Nat.log 2 m ≤ truncated m := by
  rw [← Nat.div_mul_cancel (lowestKept_dvd_two_pow_log m)]
  exact Nat.mul_le_mul_right _ (Nat.div_le_div_right (Nat.pow_log_le_self 2 hm))

theorem log_truncated {m : Nat} (hm : m ≠ 0) : Nat.log 2 (truncated m) = Nat.log 2 m :=
  Nat.log_eq_of_pow_le_of_lt_pow (two_pow_log_le_truncated hm)
    ((truncated_le m).trans_lt (Nat.lt_pow_succ_log_self Nat.one_lt_two m))

theorem significand_truncated {m : Nat} (hm : m ≠ 0) : significand (truncated m) = significand m := by
  have hlog := log_truncated hm
  rcases le_or_gt (Nat.log 2 m) 23 with hk | hk
  · rw [truncated_of_log_le hk]
  · have hkept : lowestKept (truncated m) = lowestKept m := by rw [lowestKept, hlog, lowestKept]
    rw [significand_of_le_log (by omega), significand_of_le_log hk.le, hkept, truncated,
      Nat.mul_div_cancel _ (lowestKept_pos m)]

/-! ## Order (R82) -/

/-- Leading-1 position and significand, read as one number, grow with the magnitude. -/
theorem log_significand_mono {m n : Nat} (hm : m ≠ 0) (h : m ≤ n) :
    Nat.log 2 m * 2 ^ 23 + significand m ≤ Nat.log 2 n * 2 ^ 23 + significand n := by
  have hmb := significand_bounds hm
  have hnb := significand_bounds (m := n) (by omega)
  rcases (Nat.log_mono_right (b := 2) h).lt_or_eq with hlt | heq
  · omega
  · have hsig : significand m ≤ significand n := by
      rw [significand, significand, heq]
      split
      · exact Nat.mul_le_mul_right _ h
      · exact Nat.div_le_div_right h
    omega

/-- At one leading-1 position the significands agree exactly where the magnitudes differ in discarded bits alone. -/
theorem significand_eq_iff {m n : Nat} (hlog : Nat.log 2 m = Nat.log 2 n) :
    significand m = significand n ↔ m / lowestKept m = n / lowestKept n := by
  rcases Nat.lt_or_ge (Nat.log 2 m) 23 with hk | hk
  · rw [significand_of_log_lt hk, significand_of_log_lt (hlog ▸ hk), lowestKept_of_log_le hk.le,
      lowestKept_of_log_le (hlog ▸ hk.le), hlog, Nat.div_one, Nat.div_one]
    exact Nat.mul_left_inj (Nat.two_pow_pos _).ne'
  · rw [significand_of_le_log hk, significand_of_le_log (hlog ▸ hk)]

end Sys2Proof.FloatEncoder
end

section
/-! The fields of a float word (30_encoding.md R50) and those of the word FENC returns (40_float_encoder.md R73 to R78). -/

namespace Sys2Proof.FloatEncoder

open Machine

/-! ## Words and fields -/

theorem floatExp_eq (w : Word) : floatExp w = w.toNat / 2 ^ 23 % 2 ^ 8 := by
  rw [floatExp, BitVec.extractLsb'_toNat, Nat.shiftRight_eq_div_pow]

theorem floatFrac_eq (w : Word) : floatFrac w = w.toNat % 2 ^ 23 := by
  rw [floatFrac, BitVec.extractLsb'_toNat, Nat.shiftRight_zero]

theorem floatSign_eq (w : Word) : floatSign w = decide (w.toNat / 2 ^ 31 % 2 = 1) := by
  rw [floatSign, ← BitVec.testBit_toNat, Nat.testBit_eq_decide_div_mod_eq]

/-- R50: a word is its three fields. -/
theorem toNat_eq_fields (w : Word) :
    w.toNat = (if floatSign w then 2 ^ 31 else 0) + floatExp w * 2 ^ 23 + floatFrac w := by
  have hlt := w.isLt
  rw [floatSign_eq, floatExp_eq, floatFrac_eq]
  by_cases h : w.toNat / 2 ^ 31 % 2 = 1
  · rw [if_pos (decide_eq_true h)]
    omega
  · rw [if_neg (by simpa using h)]
    omega

theorem eq_of_fields_eq {w w' : Word} (hs : floatSign w = floatSign w') (he : floatExp w = floatExp w')
    (hf : floatFrac w = floatFrac w') : w = w' :=
  BitVec.eq_of_toNat_eq (by rw [toNat_eq_fields w, toNat_eq_fields w', hs, he, hf])

@[simp] theorem floatSign_floatWord (s : BitVec 1) (e : BitVec 8) (frac : BitVec 23) :
    floatSign (floatWord s e frac) = s.getLsbD 0 := by
  rw [floatSign, floatWord, BitVec.getLsbD_append, BitVec.getLsbD_append]
  rfl

@[simp] theorem floatFrac_floatWord (s : BitVec 1) (e : BitVec 8) (frac : BitVec 23) :
    floatFrac (floatWord s e frac) = frac.toNat :=
  congrArg BitVec.toNat BitVec.extractLsb'_append_eq_right

theorem floatWord_flip_sign (s : BitVec 1) (e : BitVec 8) (frac : BitVec 23) :
    floatWord (s ^^^ 1) e frac = floatWord s e frac ^^^ 0x80000000 := by
  have h : s ++ e ++ frac ^^^ (1 : BitVec 1) ++ 0#8 ++ 0#23 = (s ^^^ 1) ++ e ++ frac := by
    simp only [BitVec.xor_append, BitVec.xor_zero]
  exact h.symm

/-! ## Sign, magnitude, leading 1, fraction (R73 to R76) -/

theorem fencSign_of_pos {v : Word} (h : 0 < v.toInt) : fencSign v = 0 := if_pos h

theorem fencSign_of_not_pos {v : Word} (h : ¬ 0 < v.toInt) : fencSign v = 1 := if_neg h

theorem toInt_ne_zero {v : Word} (hv : v ≠ 0) : v.toInt ≠ 0 := fun h =>
  hv (BitVec.toInt_inj.mp (h.trans BitVec.toInt_zero.symm))

theorem natAbs_toInt_le (v : Word) : v.toInt.natAbs ≤ 2 ^ 31 := by
  have hlo := BitVec.le_toInt v
  have hhi := BitVec.toInt_lt (x := v)
  omega

/-- R74 and D7: the magnitude is unsigned, so that it is right for the minimum integer too. -/
theorem fencMag_toNat (v : Word) : (fencMag v).toNat = v.toInt.natAbs := by
  have hlt := v.isLt
  have hint := BitVec.toInt_eq_toNat_cond v
  by_cases h : 0 < v.toInt
  · rw [fencMag, fencSign_of_pos h, if_neg (by decide)]
    split at hint <;> omega
  · rw [fencMag, fencSign_of_not_pos h, if_pos rfl, BitVec.toNat_neg]
    split at hint <;> omega

/-- The scan of R75 finds the leading 1 of what stands at or below its start. -/
theorem msbScan_eq_log (m : Word) (n : Nat) (h : m.toNat < 2 ^ (n + 1)) : msbScan m n = Nat.log 2 m.toNat := by
  induction n with
  | zero => exact (Nat.le_zero.mp (log_le_of_lt_two_pow h)).symm
  | succ n ih =>
    simp only [msbScan, ← BitVec.testBit_toNat, Nat.testBit_eq_decide_div_mod_eq, decide_eq_true_eq]
    have hq : m.toNat / 2 ^ (n + 1) < 2 := by
      rw [Nat.div_lt_iff_lt_mul (Nat.two_pow_pos _), ← Nat.pow_succ']
      exact h
    split
    · next hbit =>
      refine (Nat.log_eq_of_pow_le_of_lt_pow ?_ h).symm
      rw [← one_mul (2 ^ (n + 1)), ← Nat.le_div_iff_mul_le (Nat.two_pow_pos _)]
      exact hbit.ge.trans (Nat.mod_le _ 2)
    · refine ih ?_
      rw [← one_mul (2 ^ (n + 1)), ← Nat.div_lt_iff_lt_mul (Nat.two_pow_pos _)]
      omega

theorem msb32_eq_log (m : Word) : msb32 m = Nat.log 2 m.toNat := msbScan_eq_log m 31 m.isLt

/-- R76: the fraction is the significand without its leading 1. -/
theorem fencFrac_toNat {m : Word} (hm : m.toNat ≠ 0) :
    (fencFrac m (Nat.log 2 m.toNat)).toNat + 2 ^ 23 = significand m.toNat := by
  obtain ⟨hlo, hhi⟩ := significand_bounds hm
  rw [fencFrac]
  split
  · next hk =>
    rw [significand_of_log_lt hk] at hlo hhi ⊢
    rw [BitVec.extractLsb'_toNat, BitVec.toNat_shiftLeft, Nat.shiftRight_zero, Nat.shiftLeft_eq]
    omega
  · next hk =>
    rw [significand, if_neg hk] at hlo hhi ⊢
    rw [BitVec.extractLsb'_toNat, BitVec.toNat_ushiftRight, Nat.shiftRight_zero, Nat.shiftRight_eq_div_pow]
    omega

/-! ## The fields of the word FENC returns (R77, R78) -/

theorem floatSign_fEnc (v : Word) : floatSign (fEnc v) = decide (v.toInt < 0) := by
  by_cases hv : v = 0
  · subst hv
    rfl
  · have hne := toInt_ne_zero hv
    rw [fEnc_eq_floatWord hv, floatSign_floatWord]
    by_cases h : 0 < v.toInt
    · rw [fencSign_of_pos h, decide_eq_false (by omega)]
      rfl
    · rw [fencSign_of_not_pos h, decide_eq_true (by omega)]
      rfl

theorem floatExp_fEnc_eq_log {v : Word} (hv : v ≠ 0) : floatExp (fEnc v) = Nat.log 2 v.toInt.natAbs + 127 := by
  rw [floatExp_fEnc hv, msb32_eq_log, fencMag_toNat]

theorem floatFrac_fEnc {v : Word} (hv : v ≠ 0) : floatFrac (fEnc v) + 2 ^ 23 = significand v.toInt.natAbs := by
  have hne := toInt_ne_zero hv
  rw [fEnc_eq_floatWord hv, floatFrac_floatWord, msb32_eq_log, fencFrac_toNat (by rw [fencMag_toNat]; omega),
    fencMag_toNat]

/-- FENC looks at the sign, the leading-1 position and the significand of its input alone. -/
theorem fEnc_eq_of_significand_eq {u v : Word} (hu : u ≠ 0) (hv : v ≠ 0)
    (hsign : decide (u.toInt < 0) = decide (v.toInt < 0))
    (hlog : Nat.log 2 u.toInt.natAbs = Nat.log 2 v.toInt.natAbs)
    (hsig : significand u.toInt.natAbs = significand v.toInt.natAbs) : fEnc u = fEnc v := by
  have hfu := floatFrac_fEnc hu
  have hfv := floatFrac_fEnc hv
  refine eq_of_fields_eq ?_ ?_ (by omega)
  · rw [floatSign_fEnc, floatSign_fEnc, hsign]
  · rw [floatExp_fEnc_eq_log hu, floatExp_fEnc_eq_log hv, hlog]

/-! ## The word by exact arithmetic -/

theorem fEnc_toNat_add {v : Word} (hv : v ≠ 0) : (fEnc v).toNat + 2 ^ 23 =
    (if v.toInt < 0 then 2 ^ 31 else 0) + (Nat.log 2 v.toInt.natAbs + 127) * 2 ^ 23 + significand v.toInt.natAbs := by
  have hword := toNat_eq_fields (fEnc v)
  simp only [floatSign_fEnc, decide_eq_true_eq] at hword
  rw [hword, floatExp_fEnc_eq_log hv, ← floatFrac_fEnc hv, add_assoc]

/-- Settles O2: the fraction, with the leading 1 that assembly leaves out, is the significand. -/
theorem fencWordByExactArithmetic : Obligations.FencWordByExactArithmetic := fun _ hv => fEnc_toNat_add hv

/-- Settles O3: the leading 1 of a 32-bit magnitude stands at bit 0 to 31. -/
theorem fencReturnsNormalNumbers : Obligations.FencReturnsNormalNumbers := by
  intro v hv
  have hlog : Nat.log 2 v.toInt.natAbs ≤ 31 :=
    log_le_of_lt_two_pow ((natAbs_toInt_le v).trans_lt (by decide))
  rw [floatExp_fEnc_eq_log hv, floatSign_fEnc, ← BitVec.msb_eq_toInt, BitVec.msb_eq_getLsbD_last]
  exact ⟨by omega, by omega, rfl⟩

/-- Settles O7: negation keeps the magnitude and turns the sign. -/
theorem fencNegationFlipsSignBit : Obligations.FencNegationFlipsSignBit := by
  intro v hv hmin
  have hint : (-v).toInt = -v.toInt := BitVec.toInt_neg_of_ne_intMin hmin
  have hne := toInt_ne_zero hv
  have hmag : fencMag (-v) = fencMag v := by
    apply BitVec.eq_of_toNat_eq
    rw [fencMag_toNat, fencMag_toNat, hint, Int.natAbs_neg]
  have hsign : fencSign (-v) = fencSign v ^^^ 1 := by
    by_cases h : 0 < v.toInt
    · rw [fencSign_of_pos h, fencSign_of_not_pos (by omega)]
      rfl
    · rw [fencSign_of_not_pos h, fencSign_of_pos (by omega)]
      rfl
  rw [fEnc_eq_floatWord (by simpa using hv), fEnc_eq_floatWord hv, hmag, hsign, floatWord_flip_sign]

/-- Settles O8: the word of a positive input is its leading-1 position and its significand, read as one number. -/
theorem fencMonotoneOnPositives : Obligations.FencMonotoneOnPositives := by
  intro a b ha hab
  have hword (v : Word) (hv : 0 < v.toInt) : v.toNat ≠ 0 ∧
      (fEnc v).toNat + 2 ^ 23 = (Nat.log 2 v.toNat + 127) * 2 ^ 23 + significand v.toNat := by
    have hne : v ≠ 0 := fun h => by simp [h] at hv
    have hmag := fencMag_toNat v
    rw [fencMag, fencSign_of_pos hv, if_neg (by decide)] at hmag
    have hword := fEnc_toNat_add hne
    rw [if_neg (by omega), ← hmag] at hword
    omega
  obtain ⟨ha0, hwa⟩ := hword a ha
  obtain ⟨hb0, hwb⟩ := hword b (ha.trans_le hab)
  have hle : a.toNat ≤ b.toNat := by
    have hia := BitVec.toInt_eq_toNat_cond a
    have hib := BitVec.toInt_eq_toNat_cond b
    split at hia <;> split at hib <;> omega
  have hba := significand_bounds ha0
  have hbb := significand_bounds hb0
  have hmono := log_significand_mono ha0 hle
  have heq : fEnc a = fEnc b ↔ Nat.log 2 a.toNat = Nat.log 2 b.toNat ∧ significand a.toNat = significand b.toNat := by
    rw [← BitVec.toNat_inj]
    omega
  exact ⟨by omega, heq.trans (and_congr_right fun hlog => significand_eq_iff hlog)⟩

end Sys2Proof.FloatEncoder
end

section
/-! The number a word of FENC denotes (30_encoding.md R50) and its distance from the input (40_float_encoder.md R79, R80,
R85). -/

namespace Sys2Proof.FloatEncoder

open Machine

/-- The sign of R50 as a factor. -/
def signFactor (v : Word) : ℚ := if v.toInt < 0 then -1 else 1

theorem signFactor_mul_natAbs (v : Word) : signFactor v * (v.toInt.natAbs : ℚ) = (v.toInt : ℚ) := by
  rw [signFactor, Nat.cast_natAbs]
  split
  · next h => rw [abs_of_neg h]; push_cast; ring
  · next h => rw [abs_of_nonneg (not_lt.mp h), one_mul]

theorem abs_signFactor (v : Word) : |signFactor v| = 1 := by
  rw [signFactor]
  split <;> simp

/-- R80: the word denotes the truncated magnitude with the input's sign. -/
theorem floatValue_fEnc (v : Word) : floatValue (fEnc v) = signFactor v * (truncated v.toInt.natAbs : ℚ) := by
  by_cases hv : v = 0
  · subst hv
    rw [fEnc_zero, floatValue, if_pos rfl]
    simp [truncated]
  · have hw : fEnc v ≠ 0 := mt (fencZeroIsPlusZero.2.1 v) hv
    have hfrac : (floatFrac (fEnc v) : ℚ) = significand v.toInt.natAbs - 2 ^ 23 := by
      rw [← floatFrac_fEnc hv]
      push_cast
      ring
    have hsig : (significand v.toInt.natAbs : ℚ) * 2 ^ Nat.log 2 v.toInt.natAbs =
        truncated v.toInt.natAbs * 2 ^ 23 := by
      exact_mod_cast significand_mul_two_pow v.toInt.natAbs
    have hexp : ((Nat.log 2 v.toInt.natAbs + 127 : ℕ) : ℤ) - 127 = (Nat.log 2 v.toInt.natAbs : ℕ) := by
      push_cast
      ring
    have hsign : (if floatSign (fEnc v) then (-1 : ℚ) else 1) = signFactor v := by
      simp only [floatSign_fEnc, decide_eq_true_eq, signFactor]
    rw [floatValue, if_neg hw, hsign, floatExp_fEnc_eq_log hv, hexp, zpow_natCast, hfrac]
    linear_combination signFactor v / 2 ^ 23 * hsig

/-- Settles O4: significand and exponent multiply to the truncated magnitude. -/
theorem fencDenotesTruncatedInput : Obligations.FencDenotesTruncatedInput := floatValue_fEnc

/-- The error has the size of the discarded bits. -/
theorem toInt_sub_floatValue (v : Word) : (v.toInt : ℚ) - floatValue (fEnc v) =
    signFactor v * ((v.toInt.natAbs % lowestKept v.toInt.natAbs : ℕ) : ℚ) := by
  have hsum : (truncated v.toInt.natAbs : ℚ) + ((v.toInt.natAbs % lowestKept v.toInt.natAbs : ℕ) : ℚ) =
      v.toInt.natAbs := by
    exact_mod_cast truncated_add_mod v.toInt.natAbs
  rw [floatValue_fEnc]
  linear_combination -signFactor_mul_natAbs v - signFactor v * hsum

theorem abs_toInt_sub_floatValue (v : Word) : |(v.toInt : ℚ) - floatValue (fEnc v)| =
    ((v.toInt.natAbs % lowestKept v.toInt.natAbs : ℕ) : ℚ) := by
  rw [toInt_sub_floatValue, abs_mul, abs_signFactor, one_mul, Nat.abs_cast]

theorem floatValue_eq_toInt_iff (v : Word) :
    floatValue (fEnc v) = (v.toInt : ℚ) ↔ v.toInt.natAbs % lowestKept v.toInt.natAbs = 0 := by
  rw [eq_comm, ← sub_eq_zero, ← abs_eq_zero, abs_toInt_sub_floatValue, Nat.cast_eq_zero]

/-- Settles O5: a magnitude below 2^24, zero's too, has no bits to discard. -/
theorem fencExactIffNothingIsDiscarded : Obligations.FencExactIffNothingIsDiscarded := by
  intro v
  rw [floatValue_eq_toInt_iff]
  refine ⟨fun h => .inr (.inr h), ?_⟩
  have hsmall (h : v.toInt.natAbs < 2 ^ 24) : v.toInt.natAbs % lowestKept v.toInt.natAbs = 0 := by
    rw [lowestKept_of_log_le (log_le_of_lt_two_pow h), Nat.mod_one]
  rintro (rfl | h | h)
  · exact hsmall (by decide)
  · exact hsmall h
  · exact h

theorem floatValue_between (v : Word) :
    (0 ≤ v.toInt → 0 ≤ floatValue (fEnc v) ∧ floatValue (fEnc v) ≤ (v.toInt : ℚ)) ∧
    (v.toInt ≤ 0 → (v.toInt : ℚ) ≤ floatValue (fEnc v) ∧ floatValue (fEnc v) ≤ 0) := by
  have hle : (truncated v.toInt.natAbs : ℚ) ≤ v.toInt.natAbs := by exact_mod_cast truncated_le v.toInt.natAbs
  have hnonneg : (0 : ℚ) ≤ truncated v.toInt.natAbs := Nat.cast_nonneg _
  rw [floatValue_fEnc, ← signFactor_mul_natAbs]
  rcases lt_trichotomy v.toInt 0 with h | h | h
  · rw [signFactor, if_pos h]
    exact ⟨fun h' => absurd h (not_lt.mpr h'), fun _ => ⟨by linarith, by linarith⟩⟩
  · simp [h, truncated]
  · rw [signFactor, if_neg (not_lt.mpr h.le)]
    exact ⟨fun _ => ⟨by linarith, by linarith⟩, fun h' => absurd h (not_lt.mpr h')⟩

/-- Settles O6: the error is the discarded bits of the magnitude, with the input's sign. -/
theorem fencErrorIsTowardZeroAndAtMost127 : Obligations.FencErrorIsTowardZeroAndAtMost127 := by
  refine ⟨fun v => ⟨(floatValue_between v).1, (floatValue_between v).2, ?_, ?_⟩, ?_⟩
  · have hlt := Nat.mod_lt v.toInt.natAbs (lowestKept_pos v.toInt.natAbs)
    have hcast : ((v.toInt.natAbs % lowestKept v.toInt.natAbs : ℕ) : ℚ) + 1 ≤ (lowestKept v.toInt.natAbs : ℕ) := by
      exact_mod_cast hlt
    rw [lowestKept, Nat.cast_pow, Nat.cast_ofNat] at hcast
    rw [abs_toInt_sub_floatValue]
    exact le_sub_iff_add_le.mpr hcast
  · rw [abs_toInt_sub_floatValue]
    exact_mod_cast mod_lowestKept_le (natAbs_toInt_le v)
  · have hword : fEnc 0x7FFFFFFF = 0x4EFFFFFF := by decide
    have hsign : floatSign 0x4EFFFFFF = false := by decide
    have hexp : floatExp 0x4EFFFFFF = 157 := by decide
    have hfrac : floatFrac 0x4EFFFFFF = 0x7FFFFF := by decide
    rw [hword, floatValue, if_neg (by decide), hsign, hexp, hfrac]
    norm_num

/-! ## The minimum integer and the worked examples (R79, R85) -/

/-- Settles O9: the sign bit and the magnitude 2^31. -/
theorem fencMinimumInteger : Obligations.FencMinimumInteger := by
  have hint : BitVec.toInt (0x80000000 : Word) = -2 ^ 31 := by decide
  refine ⟨by decide, ?_⟩
  rw [(floatValue_eq_toInt_iff _).mpr (by rw [hint]; exact mod_lowestKept_two_pow 31), hint]
  norm_num

/-- Settles O10: by evaluating the encoder. -/
theorem fencWorkedExamples : Obligations.FencWorkedExamples := by
  unfold Obligations.FencWorkedExamples
  decide

end Sys2Proof.FloatEncoder
end

section
/-! The encoder on decimals (40_float_encoder.md R83) and AROM's contents (41_angle_rom.md R91, R92). -/

namespace Sys2Proof.DecimalEncoder

open Machine FloatEncoder

/-! ## The encoder on decimals -/

/-- R83: `k` is the position of the leading 1 of `x`, and `n` the whole part of `x` scaled to have it at bit 23. -/
theorem fEncQ_eq_floatWord {x : ℚ} {k n : ℤ} (hk : 2 ^ k ≤ x ∧ x < 2 ^ (k + 1))
    (hn : n * 2 ^ k ≤ x * 2 ^ 23 ∧ x * 2 ^ 23 < (n + 1) * 2 ^ k) :
    fEncQ x = floatWord 0 (BitVec.ofInt 8 (k + 127)) (BitVec.ofInt 23 (n - 2 ^ 23)) := by
  have hpos : (0 : ℚ) < 2 ^ k := by positivity
  have hx : 0 < x := hpos.trans_le hk.1
  have hlog : Int.log 2 x = k := by
    refine le_antisymm (Int.lt_add_one_iff.mp ?_) ?_
    · rw [← Int.lt_zpow_iff_log_lt Nat.one_lt_two hx]
      exact_mod_cast hk.2
    · rw [← Int.zpow_le_iff_le_log Nat.one_lt_two hx]
      exact_mod_cast hk.1
  have hscale : x * 2 ^ (23 - k) = x * 2 ^ 23 / 2 ^ k := by
    rw [zpow_sub₀ two_ne_zero, mul_div_assoc]
    rfl
  have hfloor : ⌊x * (2 : ℚ) ^ (23 - k)⌋ = n := by
    rw [hscale, Int.floor_eq_iff, le_div_iff₀ hpos, div_lt_iff₀ hpos]
    exact hn
  simp only [fEncQ, hlog, hfloor]

/-- The significand is the whole part of the scaled magnitude, whether bits are discarded or not. -/
theorem significand_mul_two_pow_bounds (m : Nat) :
    significand m * 2 ^ Nat.log 2 m ≤ m * 2 ^ 23 ∧ m * 2 ^ 23 < (significand m + 1) * 2 ^ Nat.log 2 m := by
  have hpos := Nat.two_pow_pos (Nat.log 2 m)
  have hle := truncated_le m
  rw [Nat.add_mul, one_mul, significand_mul_two_pow]
  rcases Nat.lt_or_ge (Nat.log 2 m) 23 with hk | hk
  · rw [truncated_of_log_le hk.le]
    omega
  · have hkept := lowestKept_mul_of_le_log hk
    have hsum := truncated_add_mod m
    have hmod := Nat.mod_lt m (lowestKept_pos m)
    omega

/-- Settles O11: both encoders assemble the leading-1 position and the significand of the number. -/
theorem fencAgreesWithDecimalEncoder : Obligations.FencAgreesWithDecimalEncoder := by
  intro n hpos hlt
  have hnat : (BitVec.ofNat 32 n).toNat = n := by
    rw [BitVec.toNat_ofNat]
    omega
  have hint : (BitVec.ofNat 32 n).toInt = n := by
    rw [BitVec.toInt_eq_toNat_cond, hnat, if_pos (by omega)]
  have hne : BitVec.ofNat 32 n ≠ 0 := fun h => by
    rw [h] at hnat
    exact absurd hnat (by simp; omega)
  have hsign : 0 < (BitVec.ofNat 32 n).toInt := by omega
  have hmag : fencMag (BitVec.ofNat 32 n) = BitVec.ofNat 32 n := by
    rw [fencMag, fencSign_of_pos hsign, if_neg (by decide)]
  have hk : (2 : ℚ) ^ ((Nat.log 2 n : ℕ) : ℤ) ≤ n ∧ (n : ℚ) < 2 ^ (((Nat.log 2 n : ℕ) : ℤ) + 1) := by
    exact_mod_cast (⟨Nat.pow_log_le_self 2 (by omega), Nat.lt_pow_succ_log_self Nat.one_lt_two n⟩ :
      2 ^ Nat.log 2 n ≤ n ∧ n < 2 ^ (Nat.log 2 n + 1))
  have hn : ((significand n : ℕ) : ℤ) * (2 : ℚ) ^ ((Nat.log 2 n : ℕ) : ℤ) ≤ n * 2 ^ 23 ∧
      (n : ℚ) * 2 ^ 23 < (((significand n : ℕ) : ℤ) + 1) * 2 ^ ((Nat.log 2 n : ℕ) : ℤ) := by
    exact_mod_cast significand_mul_two_pow_bounds n
  have hexp : ((Nat.log 2 n : ℕ) : ℤ) + 127 = ((Nat.log 2 n + 127 : ℕ) : ℤ) := by push_cast; rfl
  have hfrac : ((significand n : ℕ) : ℤ) - 2 ^ 23 = ((fencFrac (BitVec.ofNat 32 n) (Nat.log 2 n)).toNat : ℕ) := by
    have h := fencFrac_toNat (m := BitVec.ofNat 32 n) (by omega)
    rw [hnat] at h
    omega
  rw [fEncQ_eq_floatWord hk hn, fEnc_eq_floatWord hne, fencSign_of_pos hsign, hmag, msb32_eq_log, hnat, hexp, hfrac,
    BitVec.ofInt_natCast, BitVec.ofInt_natCast, BitVec.ofNat_toNat, BitVec.setWidth_eq]

/-! ## AROM (R91, R92) -/

/-- R92 row by row: the leading-1 position of the angle, and its significand. -/
theorem fEncQ_aromAngle {a : BitVec 3} {q : ℚ} {w : Word} (hq : aromAngle a = some q) (hw : aromWord a = some w) :
    fEncQ q = w := by
  rcases ClockEdge.bitVec3_cases a with rfl | rfl | rfl | rfl | rfl | rfl | rfl | rfl <;> cases hq <;> cases hw
  · rw [fEncQ_eq_floatWord (k := -1) (n := 0xE66666) (by norm_num) (by norm_num)]
    rfl
  · rw [fEncQ_eq_floatWord (k := 0) (n := 0xE66666) (by norm_num) (by norm_num)]
    rfl
  · rw [fEncQ_eq_floatWord (k := 1) (n := 0xE66666) (by norm_num) (by norm_num)]
    rfl
  · rw [fEncQ_eq_floatWord (k := 1) (n := 0xF00000) (by norm_num) (by norm_num)]
    rfl
  · rw [fEncQ_eq_floatWord (k := 2) (n := 0xF00000) (by norm_num) (by norm_num)]
    rfl
  · rw [fEncQ_eq_floatWord (k := 3) (n := 0xF00000) (by norm_num) (by norm_num)]
    rfl
  · rw [fEncQ_eq_floatWord (k := 4) (n := 0x900000) (by norm_num) (by norm_num)]
    rfl

/-- Settles O12: each row is evaluated, its word by the leading-1 position and significand of the angle. -/
theorem aromHoldsDecimalEncodings : Obligations.AromHoldsDecimalEncodings := by
  refine ⟨fun a q w e frac hrow => ?_, fun a q w hq hw => (fEncQ_aromAngle hq hw).symm, rfl⟩
  have hcontents : aromAngle a = some q ∧ aromWord a = some w ∧ floatExp w = e ∧ floatFrac w = frac := by
    simp only [List.mem_cons, List.not_mem_nil, or_false, Prod.mk.injEq] at hrow
    rcases hrow with ⟨rfl, rfl, rfl, rfl, rfl⟩ | ⟨rfl, rfl, rfl, rfl, rfl⟩ | ⟨rfl, rfl, rfl, rfl, rfl⟩ |
      ⟨rfl, rfl, rfl, rfl, rfl⟩ | ⟨rfl, rfl, rfl, rfl, rfl⟩ | ⟨rfl, rfl, rfl, rfl, rfl⟩ | ⟨rfl, rfl, rfl, rfl, rfl⟩
    all_goals exact ⟨rfl, rfl, rfl, rfl⟩
  obtain ⟨hq, hw, he, hf⟩ := hcontents
  exact ⟨hq, hw, fEncQ_aromAngle hq hw, he, hf⟩

end Sys2Proof.DecimalEncoder
end

section
/-! Reading a float word back (log entry 13): the integer `fDecInt` reads off a word of FENC is the input with its discarded
bits cleared, so FENC encodes it as that very word. -/

namespace Sys2Proof.FloatDecoder

open Machine FloatEncoder

/-! ## The integer read off a word of FENC -/

/-- The magnitude `fDecInt` reads off the fields of a word is the truncated one (R80). -/
theorem decodedMagnitude_eq_truncated (m : Nat) :
    (if Nat.log 2 m + 127 < 150 then significand m / 2 ^ (150 - (Nat.log 2 m + 127))
      else significand m * 2 ^ (Nat.log 2 m + 127 - 150)) = truncated m := by
  rcases Nat.lt_or_ge (Nat.log 2 m) 23 with hk | hk
  · have hshift : 150 - (Nat.log 2 m + 127) = 23 - Nat.log 2 m := by omega
    rw [if_pos (by omega), hshift, significand_of_log_lt hk, Nat.mul_div_cancel _ (Nat.two_pow_pos _),
      truncated_of_log_le hk.le]
  · have hshift : Nat.log 2 m + 127 - 150 = Nat.log 2 m - 23 := by omega
    rw [if_neg (by omega), hshift, significand_of_le_log hk]
    rfl

theorem fDecInt_fEnc_of_ne_zero {v : Word} (hv : v ≠ 0) : fDecInt (fEnc v) =
    if v.toInt < 0 then -BitVec.ofNat 32 (truncated v.toInt.natAbs) else BitVec.ofNat 32 (truncated v.toInt.natAbs) := by
  simp only [fDecInt, floatSign_fEnc, decide_eq_true_eq, floatExp_fEnc_eq_log hv, Nat.add_comm (2 ^ 23),
    floatFrac_fEnc hv, decodedMagnitude_eq_truncated]

theorem toInt_fDecInt_fEnc (v : Word) : (fDecInt (fEnc v)).toInt =
    if v.toInt < 0 then -(truncated v.toInt.natAbs : ℤ) else (truncated v.toInt.natAbs : ℤ) := by
  by_cases hv : v = 0
  · subst hv
    rfl
  · have hle := truncated_le v.toInt.natAbs
    have hmin := BitVec.le_toInt v
    have hmax := BitVec.toInt_lt (x := v)
    have hnat : (BitVec.ofNat 32 (truncated v.toInt.natAbs)).toNat = truncated v.toInt.natAbs := by
      rw [BitVec.toNat_ofNat]
      omega
    rw [fDecInt_fEnc_of_ne_zero hv]
    split
    · rw [BitVec.toInt_eq_toNat_cond, BitVec.toNat_neg, hnat]
      split <;> omega
    · rw [BitVec.toInt_eq_toNat_cond, hnat, if_pos (by omega)]

/-- Nothing is lost by an input whose leading 1 stands at bit 23 or below, which its word's exponent field tells. -/
theorem fDecInt_fEnc_of_floatExp_le {v : Word} (h : floatExp (fEnc v) ≤ 150) : fDecInt (fEnc v) = v := by
  by_cases hv : v = 0
  · subst hv
    rfl
  · rw [floatExp_fEnc_eq_log hv] at h
    apply BitVec.eq_of_toInt_eq
    rw [toInt_fDecInt_fEnc, truncated_of_log_le (by omega)]
    split <;> omega

/-- FENC gives the truncated input the word of the input. -/
theorem fEnc_fDecInt_fEnc (v : Word) : fEnc (fDecInt (fEnc v)) = fEnc v := by
  by_cases hv : v = 0
  · subst hv
    rfl
  · have hm : v.toInt.natAbs ≠ 0 := by have := toInt_ne_zero hv; omega
    have hint := toInt_fDecInt_fEnc v
    have hpos : 0 < truncated v.toInt.natAbs := (Nat.two_pow_pos _).trans_le (two_pow_log_le_truncated hm)
    have habs : (fDecInt (fEnc v)).toInt.natAbs = truncated v.toInt.natAbs := by
      rw [hint]
      split <;> omega
    refine fEnc_eq_of_significand_eq (fun h => ?_) hv ?_ ?_ ?_
    · rw [h] at habs
      exact hpos.ne habs
    · rw [decide_eq_decide, hint]
      split <;> omega
    · rw [habs, log_truncated hm]
    · rw [habs, significand_truncated hm]

/-! ## `fDec` -/

theorem fDec_fEnc (v : Word) : fDec (fEnc v) = some (fDecInt (fEnc v)) := if_pos (fEnc_fDecInt_fEnc v)

theorem fEnc_of_fDec_eq_some {w v : Word} (h : fDec w = some v) : fEnc v = w := by
  rw [fDec] at h
  split at h
  · next hw =>
    obtain rfl := Option.some.inj h
    exact hw
  · cases h

/-! ## FENC and AROM (R96) -/

/-- Which AROM words FENC returns for the integer read off them. -/
theorem arom_of_fEnc_fDecInt {a : BitVec 3} {w : Word} (hw : aromWord a = some w) (h : fEnc (fDecInt w) = w) :
    (a = 5 ∧ fDecInt w = 15) ∨ (a = 6 ∧ fDecInt w = 18) := by
  rcases ClockEdge.bitVec3_cases a with rfl | rfl | rfl | rfl | rfl | rfl | rfl | rfl <;> cases hw
  iterate 5 exact absurd h (by decide)
  · exact .inl ⟨rfl, rfl⟩
  · exact .inr ⟨rfl, rfl⟩

theorem floatExp_arom_le {a : BitVec 3} {w : Word} (hw : aromWord a = some w) : floatExp w ≤ 150 := by
  rcases ClockEdge.bitVec3_cases a with rfl | rfl | rfl | rfl | rfl | rfl | rfl | rfl <;> cases hw <;> decide

/-- Settles O13: AROM's angles are small, so an input with an AROM word is the integer read off that word. -/
theorem fencMeetsAromAtFifteenAndEighteen : Obligations.FencMeetsAromAtFifteenAndEighteen := by
  refine ⟨rfl, rfl, fun a v hw => ?_⟩
  have hv := fDecInt_fEnc_of_floatExp_le (floatExp_arom_le hw)
  have h := arom_of_fEnc_fDecInt hw (fEnc_fDecInt_fEnc v)
  rwa [hv] at h

end Sys2Proof.FloatDecoder
end

section
/-! The words of the opcode table (30_encoding.md R51 to R63): the encoder writes the machine's frames, the decoder reads
exactly what the encoder writes, and a stream of frames is cut back at their lengths. -/

namespace Sys2Proof.WireCodec

open Machine Safety FloatEncoder FloatDecoder

/-! ## Bytes and words (R102) -/

theorem setWidth_and_FF (x : Word) : (x &&& 0xFF).setWidth 8 = x.setWidth 8 :=
  BitVec.setWidth_and.trans BitVec.and_allOnes

/-- Of a shift by less than 25 bits the low byte holds none of the bits shifted in. -/
theorem setWidth_sshiftRight (v : Word) {n : Nat} (hn : n ≤ 24) :
    (v.sshiftRight n).setWidth 8 = (v >>> n).setWidth 8 := by
  apply BitVec.eq_of_getLsbD_eq
  intro j hj
  have hlow : n + j < 32 := by omega
  have hj' : j < 32 := by omega
  rw [BitVec.getLsbD_setWidth, BitVec.getLsbD_setWidth, BitVec.getLsbD_sshiftRight, BitVec.getLsbD_ushiftRight,
    if_pos hlow, decide_eq_false (Nat.not_le.mpr hj'), Bool.not_false, Bool.true_and]

theorem pack32_getElem? (v : Word) {i : Nat} (hi : i < 4) : (pack32 v)[i]? = some (wordByte v i) := by
  obtain rfl | rfl | rfl | rfl : i = 0 ∨ i = 1 ∨ i = 2 ∨ i = 3 := by omega
  all_goals rfl

/-- Settles O16: the byte is the low byte of the logical shift, and the arithmetic one has the same. -/
theorem pack32ByteUnderEitherShift : Obligations.Pack32ByteUnderEitherShift := by
  intro v i hi
  rw [pack32_getElem? v hi, setWidth_and_FF, setWidth_and_FF, setWidth_sshiftRight v (by omega),
    BitVec.setWidth_ushiftRight_eq_extractLsb]
  exact ⟨rfl, rfl⟩

@[simp] theorem pack32_unpack32 (b0 b1 b2 b3 : Byte) : pack32 (unpack32 b0 b1 b2 b3) = [b0, b1, b2, b3] := by
  have h0 : wordByte (unpack32 b0 b1 b2 b3) 0 = b0 := BitVec.extractLsb'_append_eq_right
  have h1 : wordByte (unpack32 b0 b1 b2 b3) 1 = b1 :=
    (BitVec.extractLsb'_append_eq_of_le (Nat.le_refl 8)).trans BitVec.extractLsb'_append_eq_right
  have h2 : wordByte (unpack32 b0 b1 b2 b3) 2 = b2 :=
    (BitVec.extractLsb'_append_eq_of_le (by decide)).trans
      ((BitVec.extractLsb'_append_eq_of_le (Nat.le_refl 8)).trans BitVec.extractLsb'_append_eq_right)
  have h3 : wordByte (unpack32 b0 b1 b2 b3) 3 = b3 :=
    (BitVec.extractLsb'_append_eq_of_le (by decide)).trans
      ((BitVec.extractLsb'_append_eq_of_le (by decide)).trans BitVec.extractLsb'_append_eq_left)
  rw [pack32, h0, h1, h2, h3]

/-! ## The encoder's words are the frames (R63) -/

/-- The pattern's fixed bits stand where the field bits are zero, and the other way round. -/
theorem encode_of_frame_eq_ok {validate : Bool} {i : Instr} {F : List Byte} (hc : i.isCommand = true)
    (hF : frame validate i = .ok F) : encode i = F := by
  cases i with
  | init | hold | free =>
    obtain rfl := Except.ok.inj hF
    rfl
  | setangle asel =>
    obtain ⟨w, hw, rfl⟩ := Encoding.angleByAddress_eq_ok_iff.mp hF
    simp [encode, fieldBytes, tableRow, hw, frameFA, pack32, wordField]
  | setanglev aval =>
    obtain rfl := Except.ok.inj hF
    simp [encode, fieldBytes, tableRow, frameFA, pack32, wordField]
  | rotdeg _ _ _ _ | rottime _ _ _ _ | rotstep _ _ _ _ =>
    obtain rfl := Encoding.eq_frameFR_of_rotate_eq_ok hF
    simp [encode, fieldBytes, tableRow, frameFR, pack32, pack8, wordField]
  | fenc _ => cases hc

theorem encode_fenc (v : Word) : encode (.fenc v) = (pack32 (fEnc v)).reverse := by
  simp [encode, fieldBytes, tableRow, wordField, pack32]

theorem matches_of_frame_eq_ok {validate : Bool} {i : Instr} {F : List Byte} (hc : i.isCommand = true)
    (hF : frame validate i = .ok F) : (tableRow i).matches F = true := by
  cases i with
  | init | hold | free =>
    obtain rfl := Except.ok.inj hF
    decide
  | setangle asel =>
    obtain ⟨w, hw, rfl⟩ := Encoding.angleByAddress_eq_ok_iff.mp hF
    simp [TableRow.matches, tableRow, frameFA, pack32]
  | setanglev aval =>
    obtain rfl := Except.ok.inj hF
    simp [TableRow.matches, tableRow, frameFA, pack32]
  | rotdeg _ _ _ _ | rottime _ _ _ _ | rotstep _ _ _ _ =>
    obtain rfl := Encoding.eq_frameFR_of_rotate_eq_ok hF
    simp [TableRow.matches, tableRow, frameFR, pack32, pack8]
  | fenc _ => cases hc

/-- Settles O19: fixed bits and field bits of a row do not meet, so joining them builds the frame and masking it gives the
fixed bits. -/
theorem framesMatchTheirTableRow : Obligations.FramesMatchTheirTableRow := fun _ _ _ hc hF =>
  ⟨(encode_of_frame_eq_ok hc hF).symm, matches_of_frame_eq_ok hc hF⟩

theorem encode_setangle {asel : BitVec 3} {w : Word} (hw : aromWord asel = some w) :
    encode (.setangle asel) = frameFA w :=
  encode_of_frame_eq_ok (validate := false) rfl (Encoding.angleByAddress_eq_ok_iff.mpr ⟨w, hw, rfl⟩)

theorem encode_setanglev (aval : Word) : encode (.setanglev aval) = frameFA (fEnc aval) :=
  encode_of_frame_eq_ok (validate := false) rfl rfl

section Rotate

variable (freq extent : Word) (dir exc : Byte)

theorem encode_rotdeg : encode (.rotdeg freq extent dir exc) = frameFR 0x6A freq extent dir exc :=
  encode_of_frame_eq_ok (validate := false) rfl rfl

theorem encode_rottime : encode (.rottime freq extent dir exc) = frameFR 0x6B freq extent dir exc :=
  encode_of_frame_eq_ok (validate := false) rfl rfl

theorem encode_rotstep : encode (.rotstep freq extent dir exc) = frameFR 0x6C freq extent dir exc :=
  encode_of_frame_eq_ok (validate := false) rfl rfl

end Rotate

/-! ## Decoding what the encoder writes -/

theorem aromFind_of_aromWord {a : BitVec 3} {w : Word} (hw : aromWord a = some w) : aromFind w = some a := by
  rcases ClockEdge.bitVec3_cases a with rfl | rfl | rfl | rfl | rfl | rfl | rfl | rfl <;> cases hw <;> rfl

theorem aromWord_of_aromFind {a : BitVec 3} {w : Word} (h : aromFind w = some a) : aromWord a = some w := by
  simpa using List.find?_some h

theorem decodeRotate_append (k : Word → Word → Byte → Byte → Instr) (freq extent : Word) (dir exc : Byte)
    (rest : List Byte) :
    decodeRotate k (pack32 freq ++ pack32 extent ++ [dir, exc] ++ rest) = .ok (k freq extent dir exc, rest) := by
  simp [decodeRotate, pack32]

theorem decodeAngle_of_aromFind {a : BitVec 3} {w : Word} (h : aromFind w = some a) (rest : List Byte) :
    decodeAngle (pack32 w ++ rest) = .ok (.setangle a, rest) := by
  simp [decodeAngle, pack32, h]

theorem decodeAngle_of_fDec {w v : Word} (hnone : aromFind w = none) (h : fDec w = some v) (rest : List Byte) :
    decodeAngle (pack32 w ++ rest) = .ok (.setanglev v, rest) := by
  simp [decodeAngle, pack32, hnone, h]

/-- After the header of format FA the decoder reads the angle word. -/
theorem decode_frameFA (w : Word) (rest : List Byte) : decode (frameFA w ++ rest) = decodeAngle (pack32 w ++ rest) := rfl

theorem wordByte_three_toNat (w : Word) : (wordByte w 3).toNat = w.toNat / 2 ^ 24 % 2 ^ 8 := by
  rw [wordByte, BitVec.extractLsb'_toNat, Nat.shiftRight_eq_div_pow]

/-- R78: no word of FENC begins with SYNC, which would be the exponent field 74 or 75. -/
theorem wordByte_three_fEnc_ne_sync (v : Word) : wordByte (fEnc v) 3 ≠ 0xA5 := by
  intro h
  have hbyte : 0xA5 = (fEnc v).toNat / 2 ^ 24 % 2 ^ 8 := by
    rw [← wordByte_three_toNat, h]
    rfl
  have hexp := floatExp_eq (fEnc v)
  by_cases hv : v = 0
  · rw [floatExp_fEnc_eq_zero_iff.mpr hv] at hexp
    omega
  · rw [floatExp_fEnc hv] at hexp
    omega

theorem decode_encode_fenc (v : Word) (rest : List Byte) :
    decode (encode (.fenc v) ++ rest) = .ok (.fenc (fDecInt (fEnc v)), rest) := by
  have hdecode : decode ((pack32 (fEnc v)).reverse ++ rest) = decodeFloat ((pack32 (fEnc v)).reverse ++ rest) :=
    if_neg (wordByte_three_fEnc_ne_sync v)
  rw [encode_fenc, hdecode]
  simp [decodeFloat, pack32, fDec_fEnc]

theorem fDecInt_fEnc_of_natAbs_lt {v : Word} (h : v.toInt.natAbs < 2 ^ 24) : fDecInt (fEnc v) = v := by
  apply fDecInt_fEnc_of_floatExp_le
  by_cases hv : v = 0
  · rw [floatExp_fEnc_eq_zero_iff.mpr hv]
    exact Nat.zero_le _
  · have hlog := log_le_of_lt_two_pow h
    rw [floatExp_fEnc_eq_log hv]
    omega

/-- An FA frame of a word of FENC decodes to the AROM address of that word, or to an integer with that word. -/
theorem decode_frameFA_fEnc (v : Word) (rest : List Byte) :
    ∃ j, decode (frameFA (fEnc v) ++ rest) = .ok (j, rest) ∧ encode j = frameFA (fEnc v) := by
  rw [decode_frameFA]
  cases hfind : aromFind (fEnc v) with
  | some a => exact ⟨.setangle a, decodeAngle_of_aromFind hfind rest, encode_setangle (aromWord_of_aromFind hfind)⟩
  | none =>
    refine ⟨.setanglev (fDecInt (fEnc v)), decodeAngle_of_fDec hfind (fDec_fEnc v) rest, ?_⟩
    rw [encode_setanglev, fEnc_fDecInt_fEnc]

/-- Where FENC has made no bit of the word, the instruction itself comes back. -/
theorem decode_encode {i : Instr} (hwf : i.wellFormed = true) (hi : ∀ v, i ≠ .setanglev v ∧ i ≠ .fenc v)
    (rest : List Byte) : decode (encode i ++ rest) = .ok (i, rest) := by
  cases i with
  | init | hold | free => rfl
  | setangle asel =>
    obtain ⟨w, hw⟩ := Option.isSome_iff_exists.mp ((aromWord_isSome asel).resolve_left (of_decide_eq_true hwf))
    rw [encode_setangle hw, decode_frameFA, decodeAngle_of_aromFind (aromFind_of_aromWord hw)]
  | rotdeg freq extent dir exc =>
    rw [encode_rotdeg]
    exact decodeRotate_append .rotdeg freq extent dir exc rest
  | rottime freq extent dir exc =>
    rw [encode_rottime]
    exact decodeRotate_append .rottime freq extent dir exc rest
  | rotstep freq extent dir exc =>
    rw [encode_rotstep]
    exact decodeRotate_append .rotstep freq extent dir exc rest
  | setanglev aval => exact absurd rfl (hi aval).1
  | fenc v => exact absurd rfl (hi v).2

/-- Settles O21: a word of FENC decodes to an integer with that word, and to the very input where it lost no bit. -/
theorem wireDecodeInvertsEncode : Obligations.WireDecodeInvertsEncode := by
  intro i rest hwf
  by_cases hi : ∀ v, i ≠ .setanglev v ∧ i ≠ .fenc v
  · exact ⟨i, decode_encode hwf hi rest, rfl, fun _ => rfl, fun _ _ _ => rfl⟩
  · cases i with
    | setanglev v =>
      obtain ⟨j, hdecode, hencode⟩ := decode_frameFA_fEnc v rest
      rw [encode_setanglev]
      exact ⟨j, hdecode, hencode, fun h => absurd h hi, fun _ h => by cases h⟩
    | fenc v =>
      refine ⟨_, decode_encode_fenc v rest, ?_, fun h => absurd h hi, fun u hu hsmall => ?_⟩
      · rw [encode_fenc, encode_fenc, fEnc_fDecInt_fEnc]
      · obtain rfl := Instr.fenc.inj hu
        rw [fDecInt_fEnc_of_natAbs_lt hsmall]
    | _ => exact absurd (fun _ => ⟨by simp, by simp⟩) hi

/-! ## What decodes -/

theorem decodeRotate_eq_ok {k : Word → Word → Byte → Byte → Instr} {bs rest : List Byte} {i : Instr}
    (h : decodeRotate k bs = .ok (i, rest)) : ∃ freq extent dir exc, i = k freq extent dir exc ∧
      bs = pack32 freq ++ pack32 extent ++ pack8 dir ++ pack8 exc ++ rest := by
  unfold decodeRotate at h
  split at h
  · cases h
    exact ⟨_, _, _, _, rfl, by simp [pack8]⟩
  · cases h

theorem decodeAngle_eq_ok {bs rest : List Byte} {i : Instr} (h : decodeAngle bs = .ok (i, rest)) :
    ∃ w, bs = pack32 w ++ rest ∧ ((∃ a, i = .setangle a ∧ aromWord a = some w) ∨ ∃ v, i = .setanglev v ∧ fEnc v = w) := by
  unfold decodeAngle at h
  split at h
  · next w0 w1 w2 w3 _ =>
    refine ⟨unpack32 w0 w1 w2 w3, ?_⟩
    split at h
    · next a ha =>
      cases h
      exact ⟨by simp, .inl ⟨a, rfl, aromWord_of_aromFind ha⟩⟩
    · split at h
      · next v hv =>
        cases h
        exact ⟨by simp, .inr ⟨v, rfl, fEnc_of_fDec_eq_some hv⟩⟩
      · cases h
  · cases h

theorem decodeFloat_eq_ok {bs rest : List Byte} {i : Instr} (h : decodeFloat bs = .ok (i, rest)) :
    ∃ v, i = .fenc v ∧ bs = (pack32 (fEnc v)).reverse ++ rest := by
  unfold decodeFloat at h
  split at h
  · split at h
    · next v hv =>
      cases h
      exact ⟨v, rfl, by simp [fEnc_of_fDec_eq_some hv]⟩
    · cases h
  · cases h

/-- What is accepted: an instruction with an encoding, and the bytes are that encoding and the rest. -/
def IsEncodingOf (bs : List Byte) (i : Instr) (rest : List Byte) : Prop :=
  i.wellFormed = true ∧ bs = encode i ++ rest

theorem isEncodingOf_setangle {a : BitVec 3} {w : Word} (hw : aromWord a = some w) (rest : List Byte) :
    IsEncodingOf (frameFA w ++ rest) (.setangle a) rest := by
  refine ⟨decide_eq_true fun h => ?_, by rw [encode_setangle hw]⟩
  rw [h] at hw
  cases hw

theorem isEncodingOf_decodeOperational {flag op : Byte} {bs rest : List Byte} {i : Instr}
    (h : decodeOperational flag op bs = .ok (i, rest)) : IsEncodingOf (0xA5 :: 0xFF :: flag :: op :: bs) i rest := by
  unfold decodeOperational at h
  split_ifs at h with hflag hop hflag hop hop hop hop hop
  · obtain ⟨w, rfl, ⟨a, rfl, hw⟩ | ⟨v, rfl, rfl⟩⟩ := decodeAngle_eq_ok h
    · exact hflag ▸ hop ▸ isEncodingOf_setangle hw rest
    · exact ⟨rfl, by rw [hflag, hop, encode_setanglev]; rfl⟩
  · obtain ⟨_, _, _, _, rfl, rfl⟩ := decodeRotate_eq_ok h
    exact ⟨rfl, by rw [hflag, hop, encode_rotdeg]; rfl⟩
  · obtain ⟨_, _, _, _, rfl, rfl⟩ := decodeRotate_eq_ok h
    exact ⟨rfl, by rw [hflag, hop, encode_rottime]; rfl⟩
  · obtain ⟨_, _, _, _, rfl, rfl⟩ := decodeRotate_eq_ok h
    exact ⟨rfl, by rw [hflag, hop, encode_rotstep]; rfl⟩
  · cases h
    exact ⟨rfl, by rw [hflag, hop]; rfl⟩
  · cases h
    exact ⟨rfl, by rw [hflag, hop]; rfl⟩

theorem isEncodingOf_decodeFrame {bs rest : List Byte} {i : Instr} (h : decodeFrame bs = .ok (i, rest)) :
    IsEncodingOf (0xA5 :: bs) i rest := by
  unfold decodeFrame at h
  split at h
  · split at h
    · next hcls =>
      split at h
      · next hop =>
        cases h
        exact ⟨rfl, by rw [hcls, hop]; rfl⟩
      · cases h
    · split at h
      · next hcls =>
        split at h
        · exact hcls ▸ isEncodingOf_decodeOperational h
        · cases h
      · cases h
  · cases h

/-- Settles O22: by what each layer of the decoder accepts. -/
theorem wireDecodeAcceptsOnlyEncodings : Obligations.WireDecodeAcceptsOnlyEncodings := by
  intro bs i rest h
  unfold decode at h
  split at h
  · split at h
    · next hsync => exact hsync ▸ isEncodingOf_decodeFrame h
    · obtain ⟨v, rfl, hbs⟩ := decodeFloat_eq_ok h
      exact ⟨rfl, by rw [hbs, encode_fenc]⟩
  · cases h

/-- Settles O24: by evaluating the decoder on each word. -/
theorem tableWordsDecode : Obligations.TableWordsDecode := by
  unfold Obligations.TableWordsDecode
  decide

/-! ## Cutting the stream (R61) -/

/-- Bytes 0, 1 and 3 of a frame tell its length, whatever follows it. -/
theorem frameLength_append {validate : Bool} {i : Instr} {F : List Byte} (hc : i.isCommand = true)
    (hF : frame validate i = .ok F) (rest : List Byte) : frameLength (F ++ rest) = some F.length := by
  cases i with
  | init | hold | free | setanglev _ =>
    obtain rfl := Except.ok.inj hF
    rfl
  | setangle asel =>
    obtain ⟨w, -, rfl⟩ := Encoding.angleByAddress_eq_ok_iff.mp hF
    rfl
  | rotdeg _ _ _ _ | rottime _ _ _ _ | rotstep _ _ _ _ =>
    obtain rfl := Encoding.eq_frameFR_of_rotate_eq_ok hF
    rfl
  | fenc _ => cases hc

/-- A frame at the head of the stream is cut off whole. -/
theorem cutFrames_append {F : List Byte} (hpos : 0 < F.length) {rest : List Byte}
    (hlen : frameLength (F ++ rest) = some F.length) (n : Nat) :
    cutFrames (n + 1) (F ++ rest) = (cutFrames n rest).map (F :: ·) := by
  cases F with
  | nil => cases hpos
  | cons b bs =>
    rw [List.cons_append] at hlen ⊢
    rw [cutFrames, hlen]
    simp

/-- Settles O23: by induction on the list of commands. -/
theorem streamCutsBackIntoFrames : Obligations.StreamCutsBackIntoFrames := by
  intro p cs hcs
  induction cs with
  | nil => rfl
  | cons c cs ih =>
    obtain ⟨hc, hlegal⟩ := hcs c List.mem_cons_self
    obtain ⟨F, hF⟩ := (Legality.legal_iff_frame_eq_ok p c).mp hlegal
    rw [List.flatMap_cons, List.map_cons, List.length_cons, StreamInvariant.frameBytes_of_ok hF,
      cutFrames_append (StreamInvariant.frame_length_pos hc hF) (frameLength_append hc hF _),
      ih fun d hd => hcs d (List.mem_cons_of_mem c hd), Option.map_some]

end Sys2Proof.WireCodec
end
